-- ==== Sys2Proof/Word.lean ====
section
/-! DEFINITION. Bytes, command words, and the byte memories of fixed size that CORE holds. -/

namespace Sys2Proof

/-- A byte: 8 bits, a value 0 to 255 (00_scope.md R12). -/
abbrev Byte := BitVec 8

/-- A command word: one 32-bit number, bit 31 the most significant (20_memory.md R58, 30_encoding.md R70). -/
abbrev Word := BitVec 32

/-- A memory of exactly `n` cells, cell 0 first (20_memory.md R50). The length comes with the data, so an
index of type `Fin n` is always in range (R51). -/
structure Cells (α : Type) (n : Nat) where
  cells : List α
  size : cells.length = n
  deriving DecidableEq, Repr

/-- The block buffer and a round key: 16 bytes (00_scope.md R6). -/
abbrev Block := Cells Byte 16

/-- An S-box or an inverse S-box: 256 entries of one byte (00_scope.md R6). -/
abbrev SBox := Cells Byte 256

/-- The eleven round keys of one key, indexed 0 to 10 (00_scope.md R6, 10_state.md R27). -/
abbrev RoundKeys := Cells Block 11

end Sys2Proof
end

