-- ==== Sys2Proof/Config.lean ====
section
/-! DEFINITION. What an implementation of CORE fixes: the constants of 00_scope.md R7 and the parameter
`REG_WIDTH` of R8. The spec leaves no value inside CORE free (93_implementation_defined.md section 2), so
there is no opaque constant here. -/

namespace Sys2Proof

/-- `C_MICRO`: seed to micro register (00_scope.md R7). UNVERIFIED against the original code, safe as to the
spec: log 11. -/
def Config.cMicro : Nat := 0xCAFEBABE

/-- `C_REINJ`: the reinjection mask (00_scope.md R7; log 11). -/
def Config.cReinj : Nat := 0x12345678

/-- `C_ROUND`: the round-index multiplier of the S-box seed (00_scope.md R7; log 11). -/
def Config.cRound : Nat := 0x31415926

/-- The draw width of the shuffle, in bits (00_scope.md R7). -/
def Config.drawBits : Nat := 32

/-- `REG_WIDTH`, the width of every PRNG register of every context: unbounded, or a positive number of bits
(00_scope.md R8). -/
inductive RegWidth where
  | unbounded
  | finite (w : Nat) (positive : 0 < w)
  deriving DecidableEq, Repr

/-- The canonical definition of `REG_WIDTH` (00_scope.md R8, 92_eei_decisions.md D1). -/
def Config.canonicalWidth : RegWidth := .unbounded

end Sys2Proof
end

