-- ==== Sys2Proof/Machine/State.lean ====
section
/-! DEFINITION. Everything the spec gives CORE (10_state.md), the responses it makes (30_encoding.md R73), the
reasons a step can stop, and reset (70_reset_and_hazards.md R190). -/

namespace Sys2Proof.Machine

/-- The nine response statuses (60_exceptions.md R170); no other value is ever produced. -/
inductive Status where
  | ok
  | invalidKeySize
  | invalidBlockSize
  | illegalCommand
  | illegalOperand
  | notSeeded
  | noKey
  | overflow
  | faulted
  deriving DecidableEq, Repr

/-- A response: what leaves on STATUS and DOUT for one command (10_state.md R35, 30_encoding.md R73). -/
structure Response where
  status : Status
  dout : List Byte
  deriving DecidableEq, Repr

/-- A PRNG context: the two registers, each a natural number (10_state.md R21, 41_prng.md R110). -/
structure Prng where
  state : Nat
  micro : Nat
  deriving DecidableEq, Repr

/-- The user context `U` together with its flag `U.SEEDED`. While the flag is 0 the registers hold no value and
"a model must not give the registers any number" (10_state.md R23), so the flag IS the constructor. DEDUCED,
safe: log 6. -/
inductive UserPrng where
  /-- `U.SEEDED = 0`: `U.state` and `U.micro` hold no value. -/
  | unseeded
  /-- `U.SEEDED = 1`, with the values of `U.state` and `U.micro`. -/
  | seeded (p : Prng)
  deriving DecidableEq, Repr

/-- What the cipher context holds once a key is loaded (10_state.md R26, R27). -/
structure KeyCtx where
  /-- `C.KLEN`, 6 bits: the length of the master key in bytes. -/
  klen : BitVec 6
  /-- `C.MK[0..KLEN-1]`: bytes `C.MK[KLEN..31]` hold no value (R26), so they are not listed. Log 8. -/
  masterKey : List Byte
  /-- `C.RK[0..10][0..15]`. -/
  rk : RoundKeys
  deriving DecidableEq, Repr

/-- The cipher context `C` together with its flag `C.KEYVALID`. While the flag is 0 the key stores hold no value
(10_state.md R28, R37), so the flag IS the constructor. DEDUCED, safe: log 6. -/
inductive CipherCtx where
  /-- `C.KEYVALID = 0`: `C.MK`, `C.KLEN` and `C.RK` hold no value. -/
  | noKey
  /-- `C.KEYVALID = 1`, with the values of `C.MK`, `C.KLEN` and `C.RK`. -/
  | loaded (k : KeyCtx)
  deriving DecidableEq, Repr

/-- The architectural state of CORE (10_state.md section 1), with the parameter `REG_WIDTH` of this CORE, which no
command writes (00_scope.md R8; DESIGN CHOICE, safe: log 5). -/
structure Arch where
  regWidth : RegWidth
  user : UserPrng
  cipher : CipherCtx
  /-- `FAULT`, sticky (10_state.md R29). Log 7. -/
  fault : Bool
  deriving DecidableEq, Repr

/-- The machine: its architectural state and what has passed on its ports. The last three fields are the model's
own view of the ports of 10_state.md R35, which are no registers of CORE. DESIGN CHOICE, safe: logs 1 and 3. -/
structure State where
  arch : Arch
  /-- CMD: the command words the host has presented and CORE has not accepted, oldest first. -/
  cmd : List Word
  /-- DIN: the payload bytes the host has presented and CORE has not taken, first byte first. -/
  din : List Byte
  /-- STATUS and DOUT: the responses given so far, oldest first. -/
  resp : List Response
  deriving DecidableEq, Repr

/-- The ways CORE itself stops: none. Every error of the spec is a response, after which CORE is ready for the next
command (60_exceptions.md R183), and every command terminates (70_reset_and_hazards.md R197). Nobody raises a
fault; having none is safe, since no step is made to go on that the spec stops. -/
inductive Fault where
  deriving DecidableEq, Repr

/-- The reasons the model gives no outcome. -/
inductive Refusal where
  /-- Raised by an arm of `exec` for a command with no meaning yet. Safe. No arm raises it now. -/
  | notModelled (mnemonic : String)
  /-- Raised by `transact`, so by any command, when DIN holds fewer bytes than the command word calls for: such a
  pair "is not a command and a model need not give it a meaning" (30_encoding.md R72). Safe: log 2. -/
  | payloadShort
  deriving DecidableEq, Repr

/-- The architectural state right after reset (10_state.md R37, 70_reset_and_hazards.md R190). -/
def Arch.reset (w : RegWidth) : Arch :=
  { regWidth := w, user := .unseeded, cipher := .noKey, fault := false }

/-- A CORE of register width `w` right after reset: no command in progress, no response pending
(70_reset_and_hazards.md R190). -/
def State.resetOf (w : RegWidth) : State :=
  { arch := Arch.reset w, cmd := [], din := [], resp := [] }

/-- The machine right after reset, under the canonical `REG_WIDTH` (00_scope.md R8). -/
def State.reset : State := State.resetOf Config.canonicalWidth

end Sys2Proof.Machine
end

