-- ==== Sys2Proof/Machine/Collatz.lean ====
section
/-! DEFINITION. The Collatz step functions (40_collatz_step.md), over the naturals, exact (R104). -/

namespace Sys2Proof.Machine

/-- `next_collatz(n)` (40_collatz_step.md R100). -/
def nextCollatz (n : Nat) : Nat := if n % 2 = 0 then n / 2 else 3 * n + 1

/-- `extended_collatz(n, a, b, modulus)`: `modulus = 0` means no reduction, and the reduction applies to either
branch (40_collatz_step.md R102; log 14). -/
def extendedCollatz (n a b modulus : Nat) : Nat :=
  let r := if n % 2 = 0 then n / 2 else a * n + b
  if 0 < modulus then r % modulus else r

/-- `micro_step(n)`: the one parameter set CORE instantiates (40_collatz_step.md R103, 41_prng.md R114). -/
def microStep (n : Nat) : Nat := extendedCollatz n 5 1 0

end Sys2Proof.Machine
end

