-- ==== Sys2Proof/Machine/Flags.lean ====
section
/-! DEFINITION. The three status flags of CORE, which are all it has (10_state.md R25, R36): what each reads as and
the operations that write it. No operation writes a flag as a side effect. -/

namespace Sys2Proof.Machine

/-- `U.SEEDED` (10_state.md R23). -/
def Arch.uSeeded (a : Arch) : Bool :=
  match a.user with
  | .unseeded => false
  | .seeded _ => true

/-- `C.KEYVALID` (10_state.md R28). -/
def Arch.cKeyvalid (a : Arch) : Bool :=
  match a.cipher with
  | .noKey => false
  | .loaded _ => true

/-- Load or advance the registers of U; `U.SEEDED` is 1 afterwards (10_state.md R22, R23). -/
def Arch.setUser (a : Arch) (p : Prng) : Arch := { a with user := .seeded p }

/-- `U.SEEDED <- 0`: the registers of U hold no value (60_exceptions.md R178). -/
def Arch.clearUser (a : Arch) : Arch := { a with user := .unseeded }

/-- Write the whole cipher context in one update, `C.KEYVALID <- 1` (42_key_schedule.md R132). -/
def Arch.setCipher (a : Arch) (k : KeyCtx) : Arch := { a with cipher := .loaded k }

/-- `FAULT <- 1` (10_state.md R29, 60_exceptions.md R178). -/
def Arch.setFault (a : Arch) : Arch := { a with fault := true }

/-- The 8-bit code of a status (60_exceptions.md R170). -/
def Status.code : Status → Byte
  | .ok => 0x00
  | .invalidKeySize => 0x01
  | .invalidBlockSize => 0x02
  | .illegalCommand => 0x03
  | .illegalOperand => 0x04
  | .notSeeded => 0x05
  | .noKey => 0x06
  | .overflow => 0x07
  | .faulted => 0x08

/-- The statuses after which the state is exactly what it was (60_exceptions.md R179, R180): every error but
OVERFLOW. -/
def Status.precise : Status → Bool
  | .ok => false
  | .overflow => false
  | .invalidKeySize | .invalidBlockSize | .illegalCommand | .illegalOperand => true
  | .notSeeded | .noKey | .faulted => true

end Sys2Proof.Machine
end

