-- ==== Sys2Proof/Syntax.lean ====
section
/-! DEFINITION. The nine host commands, one constructor per row of spec/opcode_table.json
(30_encoding.md R74). The operand is `ARG`, zero-extended to a natural number (R71). -/

namespace Sys2Proof

/-- A decoded command word. The payload is not part of it: it travels on DIN (30_encoding.md R72). -/
inductive Instr where
  /-- PSEED: load both registers of U from a seed of `n` payload bytes (R112). -/
  | pseed (n : Nat)
  /-- PNEXTINT: draw an integer of `bits` bits from U (R120). -/
  | pnextint (bits : Nat)
  /-- PNEXTBYTES: draw `length` bytes from U (R117). -/
  | pnextbytes (length : Nat)
  /-- KEYLOAD: load a master key of `n` payload bytes (R132). -/
  | keyload (n : Nat)
  /-- ENCRYPT: encrypt a block of `n` payload bytes (R158). -/
  | encrypt (n : Nat)
  /-- DECRYPT: decrypt a block of `n` payload bytes (R159). -/
  | decrypt (n : Nat)
  /-- RDRK: read round key `i` (R133). -/
  | rdrk (i : Nat)
  /-- SBOXGEN: the S-box of round `r` (R144). -/
  | sboxgen (r : Nat)
  /-- ISBOXGEN: the inverse S-box of round `r` (R145). -/
  | isboxgen (r : Nat)
  deriving DecidableEq, Repr

end Sys2Proof
end

