-- ==== Sys2Proof/WellFormed.lean ====
section
/-! DEFINITION. Which commands a 32-bit word can carry: the operand fits the 24 bits of `ARG`
(00_scope.md R10, 30_encoding.md R70). An operand outside its command's legal values (R75) is well-formed:
CORE executes it and answers with an error status. -/

namespace Sys2Proof

/-- The operand `ARG` of a command (30_encoding.md R70). -/
def Instr.arg : Instr → Nat
  | .pseed n => n
  | .pnextint bits => bits
  | .pnextbytes length => length
  | .keyload n => n
  | .encrypt n => n
  | .decrypt n => n
  | .rdrk i => i
  | .sboxgen r => r
  | .isboxgen r => r

/-- The operand fits in `ARG_BITS` = 24 bits (00_scope.md R10). -/
abbrev Instr.WellFormed (i : Instr) : Prop := i.arg < 2 ^ 24

end Sys2Proof
end

