-- ==== Sys2Proof/Decode.lean ====
section
/-! DEFINITION. The decoder of command words, total and rejecting by name, the encoder, and the host's view
of the decoder by the numbering of spec/opcode_table.json (30_encoding.md R70, R74, R76). -/

namespace Sys2Proof

/-- Why a word is no command (30_encoding.md R76). -/
inductive DecodeReject where
  /-- `OPC` is none of the nine operation codes. The machine answers such a word with ILLEGAL_COMMAND. -/
  | illegalOpc (opc : Byte)
  deriving DecidableEq, Repr

/-- `OPC = CMD[31:24]` (30_encoding.md R70). -/
def opcOf (w : Word) : Byte := w.extractLsb' 24 8

/-- `ARG = CMD[23:0]`, zero-extended to a natural number (30_encoding.md R70, R71). -/
def argOf (w : Word) : Nat := (w.extractLsb' 0 24).toNat

/-- The opcode map of 30_encoding.md R74: every word is one of the nine commands or is rejected by name (R76).
The match and mask of each row select on `OPC` alone. -/
def decode (w : Word) : Except DecodeReject Instr :=
  match (opcOf w).toNat with
  | 0x10 => .ok (.pseed (argOf w))
  | 0x11 => .ok (.pnextint (argOf w))
  | 0x12 => .ok (.pnextbytes (argOf w))
  | 0x20 => .ok (.keyload (argOf w))
  | 0x21 => .ok (.encrypt (argOf w))
  | 0x22 => .ok (.decrypt (argOf w))
  | 0x23 => .ok (.rdrk (argOf w))
  | 0x24 => .ok (.sboxgen (argOf w))
  | 0x25 => .ok (.isboxgen (argOf w))
  | _ => .error (.illegalOpc (opcOf w))

/-- The operation code of each command (30_encoding.md R74). -/
def Instr.opc : Instr → Byte
  | .pseed _ => 0x10
  | .pnextint _ => 0x11
  | .pnextbytes _ => 0x12
  | .keyload _ => 0x20
  | .encrypt _ => 0x21
  | .decrypt _ => 0x22
  | .rdrk _ => 0x23
  | .sboxgen _ => 0x24
  | .isboxgen _ => 0x25

/-- The word of a well-formed command: `OPC` above `ARG` (30_encoding.md R70). -/
def encode (i : Instr) : Word := i.opc ++ BitVec.ofNat 24 i.arg

/-- The instruction the decoder reads from a word given by its bits, numbered as spec/opcode_table.json numbers
them; a row has 32 bits, and bits above `nbits` are 0. -/
def decodeTableWord (nbits w : Nat) : Option Instr :=
  (decode (BitVec.ofNat 32 (w % 2 ^ nbits))).toOption

end Sys2Proof
end

