-- ==== Sys2Proof/Machine/Cells.lean ====
section
/-! DEFINITION. Operations on the internal byte memories: the one-byte reads and writes of 20_memory.md R50 and
00_scope.md R14, and the assembly of a memory from its cells. -/

namespace Sys2Proof

/-- `MemRead(M.i, 1)` (00_scope.md R14). -/
def Cells.read {α : Type} {n : Nat} (m : Cells α n) (i : Fin n) : α :=
  m.cells.get (i.cast m.size.symm)

/-- `MemWrite(M.i, 1, v)` (00_scope.md R14). -/
def Cells.write {α : Type} {n : Nat} (m : Cells α n) (i : Fin n) (v : α) : Cells α n :=
  ⟨m.cells.set i.val v, by rw [List.length_set, m.size]⟩

/-- The memory of no cells. -/
def Cells.nil {α : Type} : Cells α 0 := ⟨[], rfl⟩

/-- One cell in front of a memory. -/
def Cells.cons {α : Type} {n : Nat} (v : α) (m : Cells α n) : Cells α (n + 1) :=
  ⟨v :: m.cells, by rw [List.length_cons, m.size]⟩

/-- The memory whose cell `i` holds `f i`. -/
def Cells.ofFn {α : Type} {n : Nat} (f : Fin n → α) : Cells α n :=
  ⟨(List.finRange n).map f, by rw [List.length_map, List.length_finRange]⟩

/-- The same cells, the length written another way. -/
def Cells.cast {α : Type} {n m : Nat} (h : n = m) (c : Cells α n) : Cells α m :=
  ⟨c.cells, c.size.trans h⟩

/-- Exchange two cells (43_sbox.md R141: `tmp <- T[i]; T[i] <- T[j]; T[j] <- tmp`). -/
def Cells.swap {α : Type} {n : Nat} (m : Cells α n) (i j : Fin n) : Cells α n :=
  (m.write i (m.read j)).write j (m.read i)

/-- The identity permutation of 0 to 255 (43_sbox.md R141). -/
def SBox.identity : SBox := Cells.ofFn fun x => BitVec.ofNat 8 x.val

/-- The table entry at a byte (20_memory.md R53). -/
def SBox.at (t : SBox) (x : Byte) : Byte := t.read ⟨x.toNat, x.isLt⟩

end Sys2Proof
end

