-- ==== Sys2Proof/Machine/Operands.lean ====
section
/-! DEFINITION. Operand forms: byte order (00_scope.md R12, R13), payload length (30_encoding.md R72), legal
operands (R75), and the assembly of operands and results (R79 to R81). -/

namespace Sys2Proof

/-- `low8(v)`: `v mod 256` as a byte (00_scope.md R12). -/
def low8 (v : Nat) : Byte := BitVec.ofNat 8 v

/-- `BE(B)`: the big-endian unsigned value, element 0 most significant; 0 for the empty sequence (00_scope.md R13). -/
def beNat (bs : List Byte) : Nat := bs.foldl (fun acc b => acc * 256 + b.toNat) 0

/-- `bytesBE(v, n)`: the `n`-byte big-endian sequence of `v` (00_scope.md R13). -/
def bytesBE (v n : Nat) : List Byte :=
  (List.range n).map fun k => low8 (v / 256 ^ (n - 1 - k))

/-- `ceil(bits / 8)` (30_encoding.md R81, 41_prng.md R118). -/
def byteCount (bits : Nat) : Nat := (bits + 7) / 8

/-- The number of bytes the command takes from DIN, a function of the command word alone (30_encoding.md R72). -/
def Instr.payloadLen : Instr → Nat
  | .pseed n => n
  | .pnextint _ => 0
  | .pnextbytes _ => 0
  | .keyload n => n
  | .encrypt n => n
  | .decrypt n => n
  | .rdrk _ => 0
  | .sboxgen _ => 0
  | .isboxgen _ => 0

/-- The length of DOUT when the command responds OK (30_encoding.md R74). -/
def Instr.resultLen : Instr → Nat
  | .pseed _ => 0
  | .pnextint bits => byteCount bits
  | .pnextbytes length => length
  | .keyload _ => 0
  | .encrypt _ => 16
  | .decrypt _ => 16
  | .rdrk _ => 16
  | .sboxgen _ => 256
  | .isboxgen _ => 256

/-- Legal master-key lengths (42_key_schedule.md R130). -/
def legalKeyLen (n : Nat) : Bool := n == 16 || n == 24 || n == 32

end Sys2Proof
end

