-- ==== Sys2Proof/Machine/Ops.lean ====
section
/-! DEFINITION. The operations every command shares: accepting a command word, taking its payload, responding, and
raising an error status, which is what taking an exception is on this hardware (60_exceptions.md R180). There is no
return from one (R183). -/

namespace Sys2Proof.Machine

/-- What a command does once its payload is there: the new architectural state and the response
(00_scope.md R17). -/
abbrev Answer := Arch × Response

/-- `respond(OK, P)` (00_scope.md R14). -/
def respond (a : Arch) (dout : List Byte) : Answer := (a, ⟨.ok, dout⟩)

/-- `raise E` for a precise error: no architectural state is changed and no part of a result is delivered
(60_exceptions.md R180; R179 for FAULTED). -/
def raise (e : Status) (a : Arch) : Answer := (a, ⟨e, []⟩)

/-- OVERFLOW in a scratch context: `FAULT <- 1`, nothing else changed (60_exceptions.md R178). -/
def overflow (a : Arch) : Answer := (a.setFault, ⟨.overflow, []⟩)

/-- OVERFLOW in the user context: `FAULT <- 1` and `U.SEEDED <- 0` (60_exceptions.md R178; log 18). -/
def overflowUser (a : Arch) : Answer := (a.clearUser.setFault, ⟨.overflow, []⟩)

/-- The first check of every command: while `FAULT = 1` it is answered FAULTED (60_exceptions.md R179, R182). -/
def unlessFaulted (a : Arch) (run : Answer) : Answer :=
  if a.fault then raise .faulted a else run

/-- The third check, for commands that read U: NOT_SEEDED while `U.SEEDED = 0` (60_exceptions.md R176, R182). -/
def withUser (a : Arch) (run : Prng → Answer) : Answer :=
  match a.user with
  | .unseeded => raise .notSeeded a
  | .seeded p => run p

/-- The third check, for commands that read the round keys: NO_KEY while `C.KEYVALID = 0`
(60_exceptions.md R177, R182). -/
def withKey (a : Arch) (run : RoundKeys → Answer) : Answer :=
  match a.cipher with
  | .noKey => raise .noKey a
  | .loaded k => run k.rk

/-- Take the first `n` bytes of DIN, or nothing where DIN does not hold them (30_encoding.md R72). -/
def takePayload (n : Nat) (din : List Byte) : Option (Cells Byte n × List Byte) :=
  if h : n ≤ din.length then
    some (⟨din.take n, List.length_take_of_le h⟩, din.drop n)
  else none

/-- One transaction: take the payload the command word calls for, whatever the outcome (30_encoding.md R72), run the
command to completion, and give its one response (R73). -/
def transact (n : Nat) (run : Cells Byte n → Arch → Answer) (s : State) :
    Host.Outcome State Fault Refusal :=
  match takePayload n s.din with
  | none => .refused .payloadShort
  | some (payload, rest) =>
    .next { s with
      arch := (run payload s.arch).1
      din := rest
      resp := s.resp ++ [(run payload s.arch).2] }

/-- Accept the oldest command word on CMD, if there is one (00_scope.md R17). -/
def fetch (s : State) : Option (Word × State) :=
  match s.cmd with
  | [] => none
  | w :: rest => some (w, { s with cmd := rest })

/-- The answer to a word that is no command: no payload is taken, no state is changed, ILLEGAL_COMMAND, or FAULTED
while `FAULT = 1` (30_encoding.md R76, 60_exceptions.md R173, R179, R182). -/
def answerIllegal (s : State) : Host.Outcome State Fault Refusal :=
  transact 0 (fun _ a => unlessFaulted a (raise .illegalCommand a)) s

/-- With no command presented CORE is idle and holds its state (60_exceptions.md R189; log 4). -/
def idle (s : State) : Host.Outcome State Fault Refusal := .next s

/-- The host puts one more command on the ports, ahead of what is pending there (10_state.md R35; log 17). -/
def presentFirst (w : Word) (payload : List Byte) (s : State) : State :=
  { s with cmd := w :: s.cmd, din := payload ++ s.din }

/-- The number of payload bytes a word calls for: 0 for an illegal one (30_encoding.md R72). -/
def wordPayloadLen (w : Word) : Nat :=
  match decode w with
  | .ok i => i.payloadLen
  | .error _ => 0

end Sys2Proof.Machine
end

