-- ==== Sys2Proof/Machine/Prng.lean ====
section
/-! DEFINITION. The Collatz PRNG (41_prng.md): the four internal operations, which answer `none` where a value
assigned to a register does not fit `REG_WIDTH` (60_exceptions.md R178), and PSEED, PNEXTINT, PNEXTBYTES. -/

namespace Sys2Proof.Machine

/-- A value is below `2^REG_WIDTH` (00_scope.md R8). -/
def fits : RegWidth → Nat → Bool
  | .unbounded, _ => true
  | .finite w _, v => decide (v < 2 ^ w)

/-- Assign a value to a PRNG register: it is never wrapped, truncated or saturated (60_exceptions.md R178). -/
def assign (w : RegWidth) (v : Nat) : Option Nat := if fits w v then some v else none

/-- `seed(P, s)` (41_prng.md R111). -/
def seed (w : RegWidth) (s : Nat) : Option Prng := do
  let state ← assign w s
  let micro ← assign w (s ^^^ Config.cMicro)
  some ⟨state, micro⟩

/-- Step 2 of the churn: reinjection when `state` has become 1, from the micro register of before this churn
(41_prng.md R113; log 12). -/
def reinject (w : RegWidth) (state micro : Nat) : Option Nat :=
  if state = 1 then assign w ((micro * 3 + 1) ^^^ Config.cReinj) else some state

/-- `churn(P)`: the new registers and the churn output (41_prng.md R113). -/
def churn (w : RegWidth) (p : Prng) : Option (Prng × Nat) := do
  let stepped ← assign w (nextCollatz p.state)
  let state ← reinject w stepped p.micro
  let micro ← assign w (microStep p.micro)
  some (⟨state, micro⟩, state ^^^ micro)

/-- `nextBytes(P, length)`: `length` churns, a byte each, in call order (41_prng.md R116). -/
def nextBytes (w : RegWidth) (p : Prng) : (length : Nat) → Option (Prng × Cells Byte length)
  | 0 => some (p, Cells.nil)
  | length + 1 => do
    let (p₁, out) ← churn w p
    let (p₂, rest) ← nextBytes w p₁ length
    some (p₂, Cells.cons (low8 out) rest)

/-- The loop of `nextInt`: `m` churns packed most significant byte first behind `acc` (41_prng.md R118). -/
def packBytes (w : RegWidth) (p : Prng) (acc : Nat) : (m : Nat) → Option (Prng × Nat)
  | 0 => some (p, acc)
  | m + 1 => do
    let (p₁, out) ← churn w p
    packBytes w p₁ (acc * 256 + (low8 out).toNat) m

/-- `nextInt(P, bits)`: `ceil(bits/8)` churns, the accumulator masked to its low `bits` bits (41_prng.md R118). -/
def nextInt (w : RegWidth) (p : Prng) (bits : Nat) : Option (Prng × Nat) := do
  let (p', acc) ← packBytes w p 0 (byteCount bits)
  some (p', acc % 2 ^ bits)

/-- PSEED (41_prng.md R112): legal in every state; the seed is `BE(DIN)` (30_encoding.md R79). -/
def answerPseed (n : Nat) (payload : Cells Byte n) (a : Arch) : Answer :=
  unlessFaulted a
    (match seed a.regWidth (beNat payload.cells) with
    | none => overflowUser a
    | some p => respond (a.setUser p) [])

/-- PSEED as one transaction over its payload (41_prng.md R112, 30_encoding.md R72). -/
def execPseed (n : Nat) (s : State) : Host.Outcome State Fault Refusal :=
  transact n (answerPseed n) s

/-- PNEXTINT (41_prng.md R120); the result leaves as `bytesBE(v, ceil(bits/8))` (30_encoding.md R81). -/
def answerPnextint (bits : Nat) (_payload : Cells Byte 0) (a : Arch) : Answer :=
  unlessFaulted a (withUser a fun p =>
    if bits = 0 then raise .illegalOperand a
    else match nextInt a.regWidth p bits with
      | none => overflowUser a
      | some (p', v) => respond (a.setUser p') (bytesBE v (byteCount bits)))

/-- PNEXTINT as one transaction over its payload (41_prng.md R120, 30_encoding.md R72). -/
def execPnextint (bits : Nat) (s : State) : Host.Outcome State Fault Refusal :=
  transact 0 (answerPnextint bits) s

/-- PNEXTBYTES (41_prng.md R117). -/
def answerPnextbytes (length : Nat) (_payload : Cells Byte 0) (a : Arch) : Answer :=
  unlessFaulted a (withUser a fun p =>
    match nextBytes a.regWidth p length with
    | none => overflowUser a
    | some (p', bytes) => respond (a.setUser p') bytes.cells)

/-- PNEXTBYTES as one transaction over its payload (41_prng.md R117, 30_encoding.md R72). -/
def execPnextbytes (length : Nat) (s : State) : Host.Outcome State Fault Refusal :=
  transact 0 (answerPnextbytes length) s

end Sys2Proof.Machine
end

