-- ==== Sys2Proof/Machine/KeySchedule.lean ====
section
/-! DEFINITION. The key schedule (42_key_schedule.md) and KEYLOAD, RDRK. -/

namespace Sys2Proof.Machine

/-- `m` successive blocks of 16 bytes drawn from one context (42_key_schedule.md R131). -/
def nextBlocks (w : RegWidth) (p : Prng) : (m : Nat) → Option (Prng × Cells Block m)
  | 0 => some (p, Cells.nil)
  | m + 1 => do
    let (p₁, block) ← nextBytes w p 16
    let (p₂, rest) ← nextBlocks w p₁ m
    some (p₂, Cells.cons block rest)

/-- `expandKey(key)`: round keys 0 to 10 from a fresh scratch context `KSP` seeded with `BE(key)`
(42_key_schedule.md R131). -/
def expandKey (w : RegWidth) (key : List Byte) : Option RoundKeys := do
  let ksp ← seed w (beNat key)
  let (_, rk) ← nextBlocks w ksp 11
  some rk

/-- KEYLOAD (42_key_schedule.md R132): the length check comes first (R130), and the cipher context is written in one
update after the key schedule has finished. -/
def answerKeyload (n : Nat) (payload : Cells Byte n) (a : Arch) : Answer :=
  unlessFaulted a
    (if legalKeyLen n then
      match expandKey a.regWidth payload.cells with
      | none => overflow a
      | some rk => respond (a.setCipher ⟨BitVec.ofNat 6 n, payload.cells, rk⟩) []
    else raise .invalidKeySize a)

/-- KEYLOAD as one transaction over its payload (42_key_schedule.md R132, 30_encoding.md R72). -/
def execKeyload (n : Nat) (s : State) : Host.Outcome State Fault Refusal :=
  transact n (answerKeyload n) s

/-- RDRK (42_key_schedule.md R133). -/
def answerRdrk (i : Nat) (_payload : Cells Byte 0) (a : Arch) : Answer :=
  unlessFaulted a (withKey a fun rk =>
    if h : i < 11 then respond a (rk.read ⟨i, h⟩).cells
    else raise .illegalOperand a)

/-- RDRK as one transaction over its payload (42_key_schedule.md R133, 30_encoding.md R72). -/
def execRdrk (i : Nat) (s : State) : Host.Outcome State Fault Refusal :=
  transact 0 (answerRdrk i) s

end Sys2Proof.Machine
end

