-- ==== Sys2Proof/Machine/Sbox.lean ====
section
/-! DEFINITION. The dynamic S-box generator (43_sbox.md) and SBOXGEN, ISBOXGEN. -/

namespace Sys2Proof.Machine

/-- `sboxSeed(K, r)`: the product is an exact natural, not reduced to 32 bits (43_sbox.md R140). -/
def sboxSeed (k : Block) (r : Nat) : Nat := beNat k.cells ^^^ (r * Config.cRound)

/-- The shuffle from index `i` down to 1: at each index draw 32 bits, reduce modulo `i + 1` and swap
(43_sbox.md R141). -/
def shuffle (w : RegWidth) : (i : Nat) → i < 256 → Prng → SBox → Option (Prng × SBox)
  | 0, _, p, t => some (p, t)
  | i + 1, h, p, t => do
    let (p', v) ← nextInt w p Config.drawBits
    let j : Fin 256 := ⟨v % (i + 2), Nat.lt_of_lt_of_le (Nat.mod_lt v (Nat.succ_pos _)) h⟩
    shuffle w i (Nat.lt_of_succ_lt h) p' (t.swap ⟨i + 1, h⟩ j)

/-- `deriveSbox(K, r)`: the forward S-box, from a fresh scratch context `SBP` (43_sbox.md R141). -/
def deriveSbox (w : RegWidth) (k : Block) (r : Nat) : Option SBox := do
  let sbp ← seed w (sboxSeed k r)
  let (_, t) ← shuffle w 255 (by decide) sbp SBox.identity
  some t

/-- The loop of `invertSbox` over the inputs in order: `TI[T[x]] <- x` (43_sbox.md R143). -/
def invertFrom (t : SBox) (ti : SBox) (xs : List (Fin 256)) : SBox :=
  xs.foldl (fun acc x => acc.write (t.read x).toFin (BitVec.ofNat 8 x.val)) ti

/-- `invertSbox(T)` (43_sbox.md R143). TI starts with no value and every cell is written once when T is a
permutation; the cells' first contents here are never read in that case. DESIGN CHOICE, safe: log 19. -/
def invertSbox (t : SBox) : SBox := invertFrom t SBox.identity (List.finRange 256)

/-- `S_r` with the round keys at hand; nothing is cached (43_sbox.md R146; log 9). -/
def roundSbox (w : RegWidth) (rk : RoundKeys) (r : Fin 11) : Option SBox := deriveSbox w (rk.read r) r.val

/-- SBOXGEN (43_sbox.md R144). -/
def answerSboxgen (r : Nat) (_payload : Cells Byte 0) (a : Arch) : Answer :=
  unlessFaulted a (withKey a fun rk =>
    if h : 1 ≤ r ∧ r < 11 then
      match roundSbox a.regWidth rk ⟨r, h.2⟩ with
      | none => overflow a
      | some t => respond a t.cells
    else raise .illegalOperand a)

/-- SBOXGEN as one transaction over its payload (43_sbox.md R144, 30_encoding.md R72). -/
def execSboxgen (r : Nat) (s : State) : Host.Outcome State Fault Refusal :=
  transact 0 (answerSboxgen r) s

/-- ISBOXGEN (43_sbox.md R145). -/
def answerIsboxgen (r : Nat) (_payload : Cells Byte 0) (a : Arch) : Answer :=
  unlessFaulted a (withKey a fun rk =>
    if h : 1 ≤ r ∧ r < 11 then
      match roundSbox a.regWidth rk ⟨r, h.2⟩ with
      | none => overflow a
      | some t => respond a (invertSbox t).cells
    else raise .illegalOperand a)

/-- ISBOXGEN as one transaction over its payload (43_sbox.md R145, 30_encoding.md R72). -/
def execIsboxgen (r : Nat) (s : State) : Host.Outcome State Fault Refusal :=
  transact 0 (answerIsboxgen r) s

end Sys2Proof.Machine
end

