-- ==== Sys2Proof/Machine/Pipeline.lean ====
section
/-! DEFINITION. The 10-round cipher pipeline, forward and inverse (44_round_pipeline.md), and ENCRYPT, DECRYPT. The
five stages are all there are (R162). -/

namespace Sys2Proof.Machine

/-- `AddRoundKey(K)` (44_round_pipeline.md R151). -/
def addRoundKey (k blk : Block) : Block := Cells.ofFn fun i => blk.read i ^^^ k.read i

/-- `SubBytes(T)` (44_round_pipeline.md R152). -/
def subBytes (t : SBox) (blk : Block) : Block := Cells.ofFn fun i => t.at (blk.read i)

/-- `InvSubBytes(TI)` (44_round_pipeline.md R153). -/
def invSubBytes (ti : SBox) (blk : Block) : Block := Cells.ofFn fun i => ti.at (blk.read i)

/-- The index of the byte at row `r`, column `c` of the column-major block (20_memory.md R52). -/
def blockIndex (r c : Fin 4) : Fin 16 := ⟨r.val + 4 * c.val, by omega⟩

/-- The row of a block index (20_memory.md R52). -/
def rowOf (k : Fin 16) : Fin 4 := ⟨k.val % 4, by omega⟩

/-- The column of a block index (20_memory.md R52). -/
def colOf (k : Fin 16) : Fin 4 := ⟨k.val / 4, by omega⟩

/-- Where ShiftRows takes byte `k` from: column `(c + r) mod 4` of the same row (44_round_pipeline.md R154;
log 13). -/
def shiftSource (k : Fin 16) : Fin 16 := blockIndex (rowOf k) (colOf k + rowOf k)

/-- Where InvShiftRows takes byte `k` from: column `(c - r) mod 4` of the same row (44_round_pipeline.md R155). -/
def invShiftSource (k : Fin 16) : Fin 16 := blockIndex (rowOf k) (colOf k - rowOf k)

/-- `ShiftRows` (44_round_pipeline.md R154). -/
def shiftRows (blk : Block) : Block := Cells.ofFn fun k => blk.read (shiftSource k)

/-- `InvShiftRows` (44_round_pipeline.md R155). -/
def invShiftRows (blk : Block) : Block := Cells.ofFn fun k => blk.read (invShiftSource k)

/-- The rounds 1 to 10, in the order of the forward pipeline (44_round_pipeline.md R156). -/
def rounds : List (Fin 11) := [1, 2, 3, 4, 5, 6, 7, 8, 9, 10]

/-- One forward round: SubBytes, ShiftRows, AddRoundKey (44_round_pipeline.md R156). -/
def encryptRound (w : RegWidth) (rk : RoundKeys) (blk : Block) (r : Fin 11) : Option Block := do
  let t ← roundSbox w rk r
  some (addRoundKey (rk.read r) (shiftRows (subBytes t blk)))

/-- One inverse round: AddRoundKey, InvShiftRows, InvSubBytes (44_round_pipeline.md R157). -/
def decryptRound (w : RegWidth) (rk : RoundKeys) (blk : Block) (r : Fin 11) : Option Block := do
  let t ← roundSbox w rk r
  some (invSubBytes (invertSbox t) (invShiftRows (addRoundKey (rk.read r) blk)))

/-- `encryptBlock(P)` (44_round_pipeline.md R156). -/
def encryptBlock (w : RegWidth) (rk : RoundKeys) (plain : Block) : Option Block :=
  rounds.foldlM (encryptRound w rk) (addRoundKey (rk.read 0) plain)

/-- `decryptBlock(Q)` (44_round_pipeline.md R157). -/
def decryptBlock (w : RegWidth) (rk : RoundKeys) (cipher : Block) : Option Block := do
  let blk ← rounds.reverse.foldlM (decryptRound w rk) cipher
  some (addRoundKey (rk.read 0) blk)

/-- ENCRYPT (44_round_pipeline.md R158). -/
def answerEncrypt (n : Nat) (payload : Cells Byte n) (a : Arch) : Answer :=
  unlessFaulted a (withKey a fun rk =>
    if h : n = 16 then
      match encryptBlock a.regWidth rk (payload.cast h) with
      | none => overflow a
      | some blk => respond a blk.cells
    else raise .invalidBlockSize a)

/-- ENCRYPT as one transaction over its payload (44_round_pipeline.md R158, 30_encoding.md R72). -/
def execEncrypt (n : Nat) (s : State) : Host.Outcome State Fault Refusal :=
  transact n (answerEncrypt n) s

/-- DECRYPT (44_round_pipeline.md R159). -/
def answerDecrypt (n : Nat) (payload : Cells Byte n) (a : Arch) : Answer :=
  unlessFaulted a (withKey a fun rk =>
    if h : n = 16 then
      match decryptBlock a.regWidth rk (payload.cast h) with
      | none => overflow a
      | some blk => respond a blk.cells
    else raise .invalidBlockSize a)

/-- DECRYPT as one transaction over its payload (44_round_pipeline.md R159, 30_encoding.md R72). -/
def execDecrypt (n : Nat) (s : State) : Host.Outcome State Fault Refusal :=
  transact n (answerDecrypt n) s

end Sys2Proof.Machine
end

