-- ==== Sys2Proof/Machine/Dispatch.lean ====
section
/-! DEFINITION. One arm per command: the meaning each of the nine host commands has (30_encoding.md R74). -/

namespace Sys2Proof.Machine

def exec (i : Instr) (s : State) : Host.Outcome State Fault Refusal :=
  match i with
  | .pseed n => Sys2Proof.Machine.execPseed n s
  | .pnextint bits => Sys2Proof.Machine.execPnextint bits s
  | .pnextbytes length => Sys2Proof.Machine.execPnextbytes length s
  | .keyload n => Sys2Proof.Machine.execKeyload n s
  | .encrypt n => Sys2Proof.Machine.execEncrypt n s
  | .decrypt n => Sys2Proof.Machine.execDecrypt n s
  | .rdrk k => Sys2Proof.Machine.execRdrk k s
  | .sboxgen r => Sys2Proof.Machine.execSboxgen r s
  | .isboxgen r => Sys2Proof.Machine.execIsboxgen r s

end Sys2Proof.Machine
end

