-- ==== Sys2Proof/Machine/Step.lean ====
section
/-! DEFINITION. One step: the sequencer accepts the oldest command word, decodes it, and runs the command to its
response (30_encoding.md R82). -/

namespace Sys2Proof.Machine

/-- One step (00_scope.md R17, 30_encoding.md R82): with no command presented CORE is idle (60_exceptions.md R189); a
word of the opcode map runs its command; any other word is the illegal command (30_encoding.md R76). -/
def step (s : State) : Host.Outcome State Fault Refusal :=
  match fetch s with
  | none => idle s
  | some (w, s') =>
    match decode w with
    | .ok i => exec i s'
    | .error _ => answerIllegal s'

/-- `s` with one more command in front of those pending: the word whose bits are `w`, numbered as
spec/opcode_table.json numbers them, and for its payload as many zero bytes as it calls for, since the bits an
instruction has above `nbits` are 0. The very next step runs it. -/
def State.withFetchWord (s : State) (nbits w : Nat) : State :=
  let word : Word := BitVec.ofNat 32 (w % 2 ^ nbits)
  presentFirst word (List.replicate (wordPayloadLen word) 0) s

end Sys2Proof.Machine
end

