-- ==== Sys2Proof/Machine/Assembler.lean ====
section
/-! DEFINITION. The textual form of commands and the pseudo-commands (30_encoding.md R83, R84). They are the host's
side: each pseudo-command is an exact alias that assembles to one word. -/

namespace Sys2Proof

/-- The mnemonic of a command (30_encoding.md R74). -/
def Instr.mnemonic : Instr → String
  | .pseed _ => "PSEED"
  | .pnextint _ => "PNEXTINT"
  | .pnextbytes _ => "PNEXTBYTES"
  | .keyload _ => "KEYLOAD"
  | .encrypt _ => "ENCRYPT"
  | .decrypt _ => "DECRYPT"
  | .rdrk _ => "RDRK"
  | .sboxgen _ => "SBOXGEN"
  | .isboxgen _ => "ISBOXGEN"

/-- A pseudo-command (30_encoding.md R84). -/
inductive Pseudo where
  | reseed (n : Nat)
  | pnextu32
  | pnextbyte
  | pseedi (v : Nat)
  deriving DecidableEq, Repr

/-- The least number of bytes that holds `v`, 0 for `v = 0` (30_encoding.md R84). -/
def byteLen (v : Nat) : Nat := if v = 0 then 0 else byteCount (v.log2 + 1)

/-- The command a pseudo-command expands to (30_encoding.md R84). -/
def Pseudo.expand : Pseudo → Instr
  | .reseed n => .pseed n
  | .pnextu32 => .pnextint 32
  | .pnextbyte => .pnextbytes 1
  | .pseedi v => .pseed (byteLen v)

/-- The payload a pseudo-command supplies by itself: only PSEEDI has one; RESEED takes the one written beside it
(30_encoding.md R84). -/
def Pseudo.payload : Pseudo → List Byte
  | .pseedi v => bytesBE v (byteLen v)
  | .reseed _ | .pnextu32 | .pnextbyte => []

/-- Two hexadecimal digits of a byte (30_encoding.md R83). -/
def hexByte (b : Byte) : String :=
  String.ofList [Nat.digitChar (b.toNat / 16), Nat.digitChar (b.toNat % 16)]

/-- A byte string in index order, two digits a byte (30_encoding.md R83). -/
def hexBytes (bs : List Byte) : String := "h'" ++ bs.foldr (fun b acc => hexByte b ++ acc) "'"

/-- How an operand is written (30_encoding.md R83). -/
inductive ArgForm where
  | decimal
  | hexadecimal
  deriving DecidableEq, Repr

/-- How a payload is written: two hexadecimal digits a byte, or one character a byte (30_encoding.md R83). -/
inductive PayloadForm where
  | hexadecimal
  | ascii
  deriving DecidableEq, Repr

/-- An operand in one of its two forms (30_encoding.md R83). -/
def renderArg : ArgForm → Nat → String
  | .decimal, n => String.ofList (Nat.toDigits 10 n)
  | .hexadecimal, n => "0x" ++ String.ofList (Nat.toDigits 16 n)

/-- A byte string in one of its two forms (30_encoding.md R83). -/
def renderBytes : PayloadForm → List Byte → String
  | .hexadecimal, bs => hexBytes bs
  | .ascii, bs => "b'" ++ String.ofList (bs.map fun b => Char.ofNat b.toNat) ++ "'"

/-- A command as this spec writes it: the mnemonic, the operand, and the payload where there is one
(30_encoding.md R83). -/
def renderCommand (af : ArgForm) (pf : PayloadForm) (i : Instr) (payload : List Byte) : String :=
  i.mnemonic ++ " " ++ renderArg af i.arg ++
    (if payload.isEmpty then "" else ", " ++ renderBytes pf payload)

/-- The name of a status (60_exceptions.md R170). -/
def Machine.Status.name : Machine.Status → String
  | .ok => "OK"
  | .invalidKeySize => "INVALID_KEY_SIZE"
  | .invalidBlockSize => "INVALID_BLOCK_SIZE"
  | .illegalCommand => "ILLEGAL_COMMAND"
  | .illegalOperand => "ILLEGAL_OPERAND"
  | .notSeeded => "NOT_SEEDED"
  | .noKey => "NO_KEY"
  | .overflow => "OVERFLOW"
  | .faulted => "FAULTED"

/-- A response as this spec writes it (30_encoding.md R83). -/
def renderResponse (r : Machine.Response) : String :=
  "-> " ++ r.status.name ++ (if r.dout.isEmpty then "" else " " ++ hexBytes r.dout)

/-- A comment line (30_encoding.md R83). -/
def renderComment (text : String) : String := "#" ++ text

end Sys2Proof
end

