-- ==== Sys2Proof/Safety.lean ====
section
/-! DEFINITION. The terms claims about the machine are made in: the spec's formulas written a second time, as plain
arithmetic on naturals and functions on indices, with the literals the spec gives; the order of checks; runs of
commands; and the invariant of the machine's states. Nothing here is used by the machine. -/

namespace Sys2Proof.Safety

open Sys2Proof.Machine

/-- The value of a byte sequence as the sum of 00_scope.md R13: `sum over k of B[k] * 256^(n-1-k)`. -/
def beSum (bs : List Byte) : Nat :=
  ((List.range bs.length).map fun k => (bs.getD k 0).toNat * 256 ^ (bs.length - 1 - k)).sum

/-- The registers a seed loads (41_prng.md R111). -/
def seedRef (s : Nat) : Prng := ⟨s, s ^^^ 0xCAFEBABE⟩

/-- The value step 1 of a churn assigns to `state` (41_prng.md R113). -/
def stateStep (p : Prng) : Nat := if p.state % 2 = 0 then p.state / 2 else 3 * p.state + 1

/-- The value step 2 of a churn assigns to `state` when it assigns one (41_prng.md R113). -/
def reinjected (p : Prng) : Nat := (p.micro * 3 + 1) ^^^ 0x12345678

/-- The registers after one churn, over unbounded naturals (41_prng.md R113). -/
def churnRef (p : Prng) : Prng :=
  ⟨if stateStep p = 1 then reinjected p else stateStep p,
   if p.micro % 2 = 0 then p.micro / 2 else 5 * p.micro + 1⟩

/-- The registers after `k` churns, over unbounded naturals. -/
def streamRef (p : Prng) : Nat → Prng
  | 0 => p
  | k + 1 => churnRef (streamRef p k)

/-- The byte that churn number `k` gives, counting the first as number 0: the low 8 bits of `state XOR micro` after it
(41_prng.md R113, R116). -/
def streamByte (p : Prng) (k : Nat) : Byte :=
  BitVec.ofNat 8 ((streamRef p (k + 1)).state ^^^ (streamRef p (k + 1)).micro)

/-- A natural number is below `2^REG_WIDTH` (00_scope.md R8). -/
def belowWidth : RegWidth → Nat → Prop
  | .unbounded, _ => True
  | .finite w _, v => v < 2 ^ w

/-- Both registers a seed loads fit (41_prng.md R111). -/
def seedFits (w : RegWidth) (s : Nat) : Prop := belowWidth w s ∧ belowWidth w (s ^^^ 0xCAFEBABE)

/-- Every value one churn assigns to a register fits (41_prng.md R113, 60_exceptions.md R178). -/
def churnFits (w : RegWidth) (p : Prng) : Prop :=
  belowWidth w (stateStep p) ∧ (stateStep p = 1 → belowWidth w (reinjected p)) ∧ belowWidth w (churnRef p).micro

/-- Every value that `m` churns assign to a register fits. -/
def streamFits (w : RegWidth) (p : Prng) (m : Nat) : Prop := ∀ k < m, churnFits w (streamRef p k)

/-- What `micro` cannot pass in `k` churns from `p`: `6 * 3^(k div 2) * M` with `M = max(M0, 1)` (41_prng.md R124). -/
def microBound (p : Prng) (k : Nat) : Nat := 6 * 3 ^ (k / 2) * max p.micro 1

/-- What `state` cannot pass in `k` churns from `p`: `4 * 3^(k div 2) * max(S0, 18*M + 1 + 0x12345678)`
(41_prng.md R124). -/
def stateBound (p : Prng) (k : Nat) : Nat :=
  4 * 3 ^ (k / 2) * max p.state (18 * max p.micro 1 + 1 + 0x12345678)

/-- The seed of an S-box (43_sbox.md R140). -/
def sboxSeedRef (k : Block) (r : Nat) : Nat := beSum k.cells ^^^ (r * 0x31415926)

/-- Draw number `d` of the shuffle: four churn bytes, most significant first (43_sbox.md R141, 41_prng.md R118). -/
def drawRef (p : Prng) (d : Nat) : Nat :=
  (streamByte p (4 * d)).toNat * 2 ^ 24 + (streamByte p (4 * d + 1)).toNat * 2 ^ 16
    + (streamByte p (4 * d + 2)).toNat * 2 ^ 8 + (streamByte p (4 * d + 3)).toNat

/-- Exchange two entries of a table given as a function on naturals. -/
def swapRef (t : Nat → Nat) (i j : Nat) : Nat → Nat :=
  fun x => if x = i then t j else if x = j then t i else t x

/-- The table after the first `d` iterations of the shuffle, whose indices are 255, 254, ... (43_sbox.md R141). -/
def shuffleRef (p : Prng) : Nat → Nat → Nat
  | 0 => id
  | d + 1 => swapRef (shuffleRef p d) (255 - d) (drawRef p d % (256 - d))

/-- The S-box of a round key and round index as a function on naturals (43_sbox.md R141). -/
def sboxRef (k : Block) (r : Nat) : Nat → Nat := shuffleRef (seedRef (sboxSeedRef k r)) 255

/-- One S-box generation overflows no register: its seed fits and so does every one of its 1020 churns
(43_sbox.md R141, 60_exceptions.md R178). -/
def sboxFits (w : RegWidth) (k : Block) (r : Nat) : Prop :=
  seedFits w (sboxSeedRef k r) ∧ streamFits w (seedRef (sboxSeedRef k r)) 1020

/-- Every S-box of rounds 1 to 10 fits: what ENCRYPT and DECRYPT need of `REG_WIDTH` (44_round_pipeline.md R158). -/
def roundsFit (w : RegWidth) (rk : RoundKeys) : Prop :=
  ∀ r : Fin 11, 1 ≤ r.val → sboxFits w (rk.read r) r.val

/-- A key schedule overflows no register: its seed fits and so does every one of its 176 churns
(42_key_schedule.md R131, 60_exceptions.md R178). -/
def scheduleFits (w : RegWidth) (key : List Byte) : Prop :=
  seedFits w (beSum key) ∧ streamFits w (seedRef (beSum key)) 176

/-- Byte `k` after ShiftRows comes from here, row `k mod 4`, column `k div 4` (44_round_pipeline.md R154). -/
def rowSource (k : Nat) : Nat := k % 4 + 4 * ((k / 4 + k % 4) % 4)

/-- The block after `r` rounds of the forward pipeline, from S-boxes and round keys given as functions
(44_round_pipeline.md R156). -/
def encryptRef (sbox : Nat → Nat → Nat) (key : Nat → Nat → Nat) (plain : Nat → Nat) : Nat → Nat → Nat
  | 0 => fun k => plain k ^^^ key 0 k
  | r + 1 => fun k => sbox (r + 1) (encryptRef sbox key plain r (rowSource k)) ^^^ key (r + 1) k

/-- Byte `k` after InvShiftRows comes from here: column `(c - r) mod 4` of the same row (44_round_pipeline.md R155). -/
def invRowSource (k : Nat) : Nat := k % 4 + 4 * ((k / 4 + 4 - k % 4) % 4)

/-- The block after `m` inverse rounds, rounds 10, 9, ... in that order, before the last AddRoundKey, from inverse
S-boxes and round keys given as functions (44_round_pipeline.md R157). -/
def decryptRef (isbox : Nat → Nat → Nat) (key : Nat → Nat → Nat) (cipher : Nat → Nat) : Nat → Nat → Nat
  | 0 => cipher
  | m + 1 => fun k =>
    isbox (10 - m) (decryptRef isbox key cipher m (invRowSource k) ^^^ key (10 - m) (invRowSource k))

/-- Byte `k` of round key `r`, as a number; 0 outside the memory, where nothing reads it. -/
def keyByte (rk : RoundKeys) (r k : Nat) : Nat := (((rk.cells.map Cells.cells).getD r []).getD k 0).toNat

/-- The S-boxes of a key, as functions (43_sbox.md R146). -/
def sboxesRef (rk : RoundKeys) (r : Nat) : Nat → Nat :=
  if h : r < 11 then sboxRef (rk.read ⟨r, h⟩) r else id

/-- Byte `k` of a byte sequence, as a number; 0 past its end, where nothing reads it. -/
def byteAt (bs : List Byte) (k : Nat) : Nat := (bs.getD k 0).toNat

/-- The operation code of a word, `CMD[31:24]` (30_encoding.md R70). -/
def opcNat (w : Word) : Nat := w.toNat / 2 ^ 24

/-- The operand of a word, `CMD[23:0]` (30_encoding.md R70). -/
def argNat (w : Word) : Nat := w.toNat % 2 ^ 24

/-- The nine operation codes (30_encoding.md R74). -/
def opcodes : List Nat := [0x10, 0x11, 0x12, 0x20, 0x21, 0x22, 0x23, 0x24, 0x25]

/-- The number of bytes CORE takes from DIN for a word (30_encoding.md R72). -/
def payloadBytes (w : Word) : Nat := if opcNat w ∈ [0x10, 0x20, 0x21, 0x22] then argNat w else 0

/-- The length of DOUT on OK (30_encoding.md R74, its table). -/
def resultBytes (w : Word) : Nat :=
  if opcNat w = 0x11 then (argNat w + 7) / 8
  else if opcNat w = 0x12 then argNat w
  else if opcNat w ∈ [0x21, 0x22, 0x23] then 16
  else if opcNat w ∈ [0x24, 0x25] then 256
  else 0

/-- The status the checks of 60_exceptions.md R182 give a word before it executes, items 1 to 4 in that order; none
where all pass. -/
def checkStatus (a : Arch) (w : Word) : Option Status :=
  if a.fault then some .faulted
  else if opcNat w ∉ opcodes then some .illegalCommand
  else if opcNat w ∈ [0x11, 0x12] ∧ ¬ a.uSeeded then some .notSeeded
  else if opcNat w ∈ [0x21, 0x22, 0x23, 0x24, 0x25] ∧ ¬ a.cKeyvalid then some .noKey
  else if opcNat w = 0x20 ∧ argNat w ∉ [16, 24, 32] then some .invalidKeySize
  else if opcNat w ∈ [0x21, 0x22] ∧ argNat w ≠ 16 then some .invalidBlockSize
  else if opcNat w = 0x11 ∧ argNat w = 0 then some .illegalOperand
  else if opcNat w = 0x23 ∧ 10 < argNat w then some .illegalOperand
  else if opcNat w ∈ [0x24, 0x25] ∧ (argNat w < 1 ∨ 10 < argNat w) then some .illegalOperand
  else none

/-- The commands of the PRNG group (30_encoding.md R74). -/
def isPrngCommand : Instr → Bool
  | .pseed _ | .pnextint _ | .pnextbytes _ => true
  | .keyload _ | .encrypt _ | .decrypt _ | .rdrk _ | .sboxgen _ | .isboxgen _ => false

/-- The commands that change no architectural state when they do not overflow (20_memory.md R60). -/
def isReadOnlyCommand : Instr → Bool
  | .encrypt _ | .decrypt _ | .rdrk _ | .sboxgen _ | .isboxgen _ => true
  | .pseed _ | .pnextint _ | .pnextbytes _ | .keyload _ => false

/-- `s` after a command that left `rest` on DIN, the architectural state `a`, and gave the response `r`. -/
def after (s : State) (rest : List Byte) (a : Arch) (r : Response) : State :=
  { s with arch := a, din := rest, resp := s.resp ++ [r] }

/-- One command with its payload, sent to a CORE whose ports are otherwise empty (30_encoding.md R72): the
architectural state afterwards and the response; none where the pair is not a command. -/
def answer (a : Arch) (c : Instr × List Byte) : Option (Arch × Response) :=
  match exec c.1 ⟨a, [], c.2, []⟩ with
  | .next ⟨a', _, [], [r]⟩ => some (a', r)
  | _ => none

/-- A sequence of commands, one after the other: the final state, and each command with its response
(20_memory.md R63). -/
def answers (a : Arch) : List (Instr × List Byte) → Option (Arch × List (Instr × Response))
  | [] => some (a, [])
  | c :: rest =>
    match answer a c with
    | none => none
    | some (a', r) =>
      match answers a' rest with
      | none => none
      | some (a'', rs) => some (a'', (c.1, r) :: rs)

/-- The same machine with registers of the canonical, unbounded width (00_scope.md R8). -/
def widened (s : State) : State := { s with arch := { s.arch with regWidth := .unbounded } }

/-- What every reachable state of CORE satisfies: FAULT is 1 only where REG_WIDTH is finite (10_state.md R29), the
registers of U fit (60_exceptions.md R178), and the key stores hold a legal key, its length and its own key schedule
(10_state.md R26, R27). -/
def Inv (s : State) : Prop :=
  (s.arch.fault = true → s.arch.regWidth ≠ .unbounded) ∧
  (∀ p, s.arch.user = .seeded p →
    belowWidth s.arch.regWidth p.state ∧ belowWidth s.arch.regWidth p.micro) ∧
  (∀ k, s.arch.cipher = .loaded k →
    k.klen.toNat ∈ [16, 24, 32] ∧ k.masterKey.length = k.klen.toNat ∧
    expandKey s.arch.regWidth k.masterKey = some k.rk)

end Sys2Proof.Safety
end

