-- ==== Sys2Proof/Certificates/Slice0/Obligations.lean ====
section
/-! DEFINITION. The statements for the provers, each citing the rule of spec/ it formalises. Where a statement speaks
of the naturals' formulas (`streamRef`, `sboxRef`, `encryptRef`, ...) those are the second writing of the spec's rules in
Sys2Proof/Safety.lean, not the machine's own definitions. -/

open Sys2Proof Sys2Proof.Machine Sys2Proof.Safety

/-! ## Encoding -/

/-- 30_encoding.md R70, R74: decoding the word of a well-formed command gives the command back, with every operand
that 24 bits admit. -/
def Obligations.DecodeOfEncode : Prop :=
  ∀ i : Instr, i.WellFormed → decode (encode i) = .ok i

/-- 30_encoding.md R70, R74: a word that decodes is the encoding of what it decodes to, so no bit of it is dropped. -/
def Obligations.EncodeOfDecode : Prop :=
  ∀ (w : Word) (i : Instr), decode w = .ok i → i.WellFormed ∧ encode i = w

/-- 30_encoding.md R74: a word selects the row whose match it equals under the mask 0xFF000000, and its operand is
its low 24 bits. -/
def Obligations.RowSelectedByMatchAndMask : Prop :=
  ∀ w : Word,
    (w &&& 0xFF000000#32 = 0x10000000#32 → decode w = .ok (.pseed (argNat w))) ∧
    (w &&& 0xFF000000#32 = 0x11000000#32 → decode w = .ok (.pnextint (argNat w))) ∧
    (w &&& 0xFF000000#32 = 0x12000000#32 → decode w = .ok (.pnextbytes (argNat w))) ∧
    (w &&& 0xFF000000#32 = 0x20000000#32 → decode w = .ok (.keyload (argNat w))) ∧
    (w &&& 0xFF000000#32 = 0x21000000#32 → decode w = .ok (.encrypt (argNat w))) ∧
    (w &&& 0xFF000000#32 = 0x22000000#32 → decode w = .ok (.decrypt (argNat w))) ∧
    (w &&& 0xFF000000#32 = 0x23000000#32 → decode w = .ok (.rdrk (argNat w))) ∧
    (w &&& 0xFF000000#32 = 0x24000000#32 → decode w = .ok (.sboxgen (argNat w))) ∧
    (w &&& 0xFF000000#32 = 0x25000000#32 → decode w = .ok (.isboxgen (argNat w)))

/-- 30_encoding.md R76: a word is illegal exactly when its OPC is none of the nine, 247 of the 256 OPC values, 0x00
and 0xFF among them; a CORE that has not faulted takes no payload for it, changes no state, and answers
(ILLEGAL_COMMAND, empty). -/
def Obligations.IllegalWordsAnswered : Prop :=
  (∀ w : Word, (∃ e, decode w = .error e) ↔ opcNat w ∉ opcodes) ∧
  ((List.range 256).filter fun opc => decide (opc ∉ opcodes)).length = 247 ∧
  0x00 ∉ opcodes ∧ 0xFF ∉ opcodes ∧
  (∀ (s : State) (w : Word) (rest : List Word),
    s.cmd = w :: rest → opcNat w ∉ opcodes → s.arch.fault = false →
    step s = .next { s with cmd := rest, resp := s.resp ++ [⟨.illegalCommand, []⟩] })

/-- 30_encoding.md R74, R83: words written out bit by bit from the encoding decode to what they stand for. -/
def Obligations.WordsOfTheSpecDecode : Prop :=
  decode 0x10000001#32 = .ok (.pseed 1) ∧
  decode 0x11000020#32 = .ok (.pnextint 32) ∧
  decode 0x12000005#32 = .ok (.pnextbytes 5) ∧
  decode 0x20000010#32 = .ok (.keyload 16) ∧
  decode 0x21000010#32 = .ok (.encrypt 16) ∧
  decode 0x22000010#32 = .ok (.decrypt 16) ∧
  decode 0x2300000A#32 = .ok (.rdrk 10) ∧
  decode 0x24000001#32 = .ok (.sboxgen 1) ∧
  decode 0x25FFFFFF#32 = .ok (.isboxgen 16777215) ∧
  decode 0x7F000010#32 = .error (.illegalOpc 0x7F#8)

/-! ## The step, its ports, and the order of checks -/

/-- 30_encoding.md R82: when the oldest word on CMD decodes to a command, the step is that command's execution in the
state from which the word has been accepted. -/
def Obligations.StepRunsDecodedCommand : Prop :=
  ∀ (s : State) (w : Word) (rest : List Word) (i : Instr),
    s.cmd = w :: rest → decode w = .ok i → step s = exec i { s with cmd := rest }

/-- 60_exceptions.md R189: with no command presented CORE is idle and holds its state. That an idle CORE still steps is
the model's reading (log 4). -/
def Obligations.IdleHoldsState : Prop :=
  ∀ s : State, s.cmd = [] → step s = .next s

/-- 30_encoding.md R72: CORE takes exactly the payload the word calls for, whatever the outcome: `ARG` bytes for PSEED,
KEYLOAD, ENCRYPT and DECRYPT, none for any other word, legal or not. -/
def Obligations.EveryWordTakesItsPayload : Prop :=
  ∀ (s : State) (w : Word) (rest : List Word),
    s.cmd = w :: rest → payloadBytes w ≤ s.din.length →
    ∃ (a : Arch) (r : Response),
      step s = .next ⟨a, rest, s.din.drop (payloadBytes w), s.resp ++ [r]⟩

/-- The model's choice where the spec gives a short payload no meaning (30_encoding.md R72, log 2): the step is refused,
and it is refused in no other case. -/
def Obligations.OnlyShortPayloadIsRefused : Prop :=
  ∀ (s : State) (w : Word) (rest : List Word) (e : Refusal),
    s.cmd = w :: rest → (step s = .refused e ↔ s.din.length < payloadBytes w ∧ e = .payloadShort)

/-- 30_encoding.md R73: exactly one response per command, whose DOUT has the length of the table of R74 when the
status is OK and is empty otherwise. -/
def Obligations.OneResponsePerCommand : Prop :=
  ∀ (s t : State) (w : Word) (rest : List Word),
    s.cmd = w :: rest → step s = .next t →
    ∃ r : Response, t.resp = s.resp ++ [r] ∧
      (r.status = .ok → r.dout.length = resultBytes w) ∧ (r.status ≠ .ok → r.dout = [])

/-- 60_exceptions.md R182: the order of checks. The first check that fails gives the status; where none fails the
command completes, or overflows while it executes, which only a finite REG_WIDTH can. -/
def Obligations.FirstFailedCheckGivesStatus : Prop :=
  ∀ (s t : State) (w : Word) (rest : List Word) (r : Response),
    s.cmd = w :: rest → step s = .next t → t.resp = s.resp ++ [r] →
    match checkStatus s.arch w with
    | some e => r.status = e
    | none => r.status = .ok ∨ (r.status = .overflow ∧ s.arch.regWidth ≠ .unbounded)

/-- 60_exceptions.md R180: a status 0x01 to 0x06 is precise: no architectural state is changed, the payload is taken
and dropped, and no part of a result is delivered. -/
def Obligations.ErrorsArePrecise : Prop :=
  ∀ (s t : State) (w : Word) (rest : List Word) (r : Response),
    s.cmd = w :: rest → step s = .next t → t.resp = s.resp ++ [r] →
    r.status.code.toNat ∈ [1, 2, 3, 4, 5, 6] →
    t.arch = s.arch ∧ r.dout = [] ∧ t.din = s.din.drop (payloadBytes w) ∧ t.cmd = rest

/-- 60_exceptions.md R175: with unbounded registers no status but 0x00 to 0x06 is produced, and FAULT stays 0. -/
def Obligations.UnboundedNeverOverflows : Prop :=
  ∀ (s t : State) (r : Response),
    s.arch.regWidth = .unbounded → Inv s → step s = .next t → t.resp = s.resp ++ [r] →
    r.status.code.toNat ≤ 6 ∧ t.arch.fault = false

/-- 60_exceptions.md R179: while FAULT = 1 every word, legal or not, takes its payload, changes nothing and is answered
(FAULTED, empty). -/
def Obligations.FaultedAnswersEveryWord : Prop :=
  ∀ (s : State) (w : Word) (rest : List Word),
    s.arch.fault = true → s.cmd = w :: rest → payloadBytes w ≤ s.din.length →
    step s = .next ⟨s.arch, rest, s.din.drop (payloadBytes w), s.resp ++ [⟨.faulted, []⟩]⟩

/-- 60_exceptions.md R178, the effects of OVERFLOW: it needs a finite REG_WIDTH, FAULT becomes 1, U is unseeded if the
command runs on U and is untouched otherwise, C is unchanged, DOUT is empty. -/
def Obligations.OverflowEffects : Prop :=
  ∀ (s t : State) (w : Word) (rest : List Word) (r : Response),
    s.cmd = w :: rest → step s = .next t → t.resp = s.resp ++ [r] → r.status = .overflow →
    s.arch.regWidth ≠ .unbounded ∧ r.dout = [] ∧
    t.arch = { s.arch with
      fault := true
      user := if opcNat w ∈ [0x10, 0x11, 0x12] then .unseeded else s.arch.user }

/-- 00_scope.md R8: a finite REG_WIDTH never wraps a value: a command that does not overflow leaves the state, and gives
the response, that the unbounded machine does. -/
def Obligations.FiniteWidthNeverWraps : Prop :=
  ∀ (s t : State) (r : Response),
    step s = .next t → t.resp = s.resp ++ [r] → r.status ≠ .overflow →
    step (widened s) = .next (widened t)

/-- What each command leaves unchanged: DIN loses exactly the payload (30_encoding.md R72) and one response is added
(R73); REG_WIDTH stays (00_scope.md R8); FAULT changes on OVERFLOW alone (10_state.md R29, 60_exceptions.md R178); the
key stores, all 176 round-key bytes and the master key, on a KEYLOAD that responds OK (10_state.md R26 to R28); the
registers and flag of U on a PRNG command that responds OK or overflows (R22, R23, 60_exceptions.md R178, R180). That
State holds REG_WIDTH, the words still on CMD and the responses already given is the model's choice (logs 5, 1 and 3,
DESIGN CHOICE). -/
def Obligations.CommandFrame : Prop :=
  ∀ (i : Instr) (s t : State), exec i s = .next t →
    t.cmd = s.cmd ∧ t.arch.regWidth = s.arch.regWidth ∧
    ∃ (payload : List Byte) (r : Response),
      s.din = payload ++ t.din ∧ payload.length = i.payloadLen ∧ t.resp = s.resp ++ [r] ∧
      (t.arch.fault ≠ s.arch.fault → r.status = .overflow) ∧
      (t.arch.cipher ≠ s.arch.cipher → r.status = .ok ∧ ∃ n, i = .keyload n) ∧
      (t.arch.user ≠ s.arch.user → isPrngCommand i = true ∧ (r.status = .ok ∨ r.status = .overflow))

/-- 70_reset_and_hazards.md R194: cipher commands do not disturb the user stream, and PRNG commands touch only U. -/
def Obligations.CipherAndStreamAreIndependent : Prop :=
  ∀ (i : Instr) (s t : State), exec i s = .next t →
    (isPrngCommand i = true → t.arch.cipher = s.arch.cipher) ∧
    (isPrngCommand i = false → t.arch.user = s.arch.user)

/-- 20_memory.md R60: RDRK, SBOXGEN, ISBOXGEN, ENCRYPT and DECRYPT change no architectural state, and given the same
payload again give the same response again. -/
def Obligations.ReadOnlyCommandsRepeat : Prop :=
  ∀ (i : Instr) (s t : State) (r : Response),
    isReadOnlyCommand i = true → exec i s = .next t → t.resp = s.resp ++ [r] → r.status ≠ .overflow →
    t.arch = s.arch ∧
    exec i { t with din := s.din } = .next { t with resp := t.resp ++ [r] }

/-! ## Reset and the invariant -/

/-- 70_reset_and_hazards.md R190, R192: right after reset, at every register width, every operand of a command that draws
from U is answered NOT_SEEDED and every operand of one that uses the key NO_KEY, with nothing changed but the payload
taken. -/
def Obligations.RefusedUntilBooted : Prop :=
  ∀ (w : RegWidth) (s : State) (payload rest : List Byte) (n : Nat),
    s.arch = Arch.reset w → s.din = payload ++ rest → payload.length = n →
    s.arch.uSeeded = false ∧ s.arch.cKeyvalid = false ∧ s.arch.fault = false ∧
    exec (.pnextint n) s = .next (after s s.din s.arch ⟨.notSeeded, []⟩) ∧
    exec (.pnextbytes n) s = .next (after s s.din s.arch ⟨.notSeeded, []⟩) ∧
    exec (.encrypt n) s = .next (after s rest s.arch ⟨.noKey, []⟩) ∧
    exec (.decrypt n) s = .next (after s rest s.arch ⟨.noKey, []⟩) ∧
    exec (.rdrk n) s = .next (after s s.din s.arch ⟨.noKey, []⟩) ∧
    exec (.sboxgen n) s = .next (after s s.din s.arch ⟨.noKey, []⟩) ∧
    exec (.isboxgen n) s = .next (after s s.din s.arch ⟨.noKey, []⟩)

/-- The invariant of the machine (10_state.md R26, R27, R29; 60_exceptions.md R178) is kept by every step. -/
def Obligations.StepKeepsInvariant : Prop :=
  ∀ s t : State, Inv s → step s = .next t → Inv t

/-- The invariant holds right after reset, at every register width (70_reset_and_hazards.md R190). -/
def Obligations.ResetMeetsInvariant : Prop :=
  Inv State.reset ∧ ∀ w : RegWidth, Inv (State.resetOf w)

/-! ## The step functions and the PRNG -/

/-- 40_collatz_step.md R102: the generalized step, with the reduction on either branch; `3, 1, 0` is the standard map and
`5, 1, 0` the micro step. -/
def Obligations.GeneralizedStep : Prop :=
  (∀ n a b m, extendedCollatz n a b m =
    if m = 0 then (if n % 2 = 0 then n / 2 else a * n + b)
    else (if n % 2 = 0 then n / 2 else a * n + b) % m) ∧
  (∀ n, extendedCollatz n 3 1 0 = nextCollatz n) ∧
  (∀ a b m, extendedCollatz 0 a b m = 0) ∧
  (∀ n a b, extendedCollatz n a b 1 = 0) ∧
  (∀ n, microStep n = extendedCollatz n 5 1 0)

/-- 40_collatz_step.md R105: after `k` steps from `n >= 1` the standard map is at most `4 * 2^(k div 2) * n` and the micro
step at most `6 * 3^(k div 2) * n`. -/
def Obligations.GrowthBounds : Prop :=
  ∀ n k : Nat, 1 ≤ n →
    nextCollatz^[k] n ≤ 4 * 2 ^ (k / 2) * n ∧ microStep^[k] n ≤ 6 * 3 ^ (k / 2) * n

/-- 41_prng.md R113: the churn. Where every assigned value fits, the two registers are those of the rule and the output
is their XOR; where one does not, there is no result. -/
def Obligations.ChurnByRule : Prop :=
  ∀ (w : RegWidth) (p : Prng),
    (churnFits w p →
      churn w p = some (churnRef p, (churnRef p).state ^^^ (churnRef p).micro)) ∧
    (¬ churnFits w p → churn w p = none)

/-- 41_prng.md R115(b), (c), (f): what a churn reinjects is never 0, is 1 for the one micro value 101806632, and is
0x12345679 for the micro value 0; and a churn whose first step reaches 1 leaves exactly that in `state`, tested no
further. -/
def Obligations.ReinjectionNeverZero : Prop :=
  (∀ m : Nat, ∃ v, reinject .unbounded 1 m = some v) ∧
  (∀ (w : RegWidth) (m v : Nat), reinject w 1 m = some v →
    v ≠ 0 ∧ (v = 1 ↔ m = 101806632) ∧ (m = 0 → v = 0x12345679)) ∧
  (∀ (w : RegWidth) (p q : Prng) (out : Nat), nextCollatz p.state = 1 → churn w p = some (q, out) →
    reinject w 1 p.micro = some q.state)

/-- 10_state.md R21: `state` never influences `micro`: contexts with equal micro registers have equal micro registers
after any draw. -/
def Obligations.StateNeverInfluencesMicro : Prop :=
  ∀ (w w' : RegWidth) (p q p' q' : Prng) (n : Nat) (x y : Cells Byte n),
    p.micro = q.micro → nextBytes w p n = some (p', x) → nextBytes w' q n = some (q', y) →
    p'.micro = q'.micro

/-- 41_prng.md R122: the degenerate seeds. Seed 0xCAFEBABE keeps `micro` at 0, seed 0 keeps `state` at 0, and seed
0xCAFEBABF runs `micro` round the 7-cycle 1, 6, 3, 16, 8, 4, 2, for every number of draws. -/
def Obligations.DegenerateSeeds : Prop :=
  seed .unbounded 0xCAFEBABE = some ⟨0xCAFEBABE, 0⟩ ∧
  seed .unbounded 0 = some ⟨0, 0xCAFEBABE⟩ ∧
  seed .unbounded 0xCAFEBABF = some ⟨0xCAFEBABF, 1⟩ ∧
  ∀ (n : Nat) (p : Prng) (x : Cells Byte n),
    (nextBytes .unbounded ⟨0xCAFEBABE, 0⟩ n = some (p, x) → p.micro = 0) ∧
    (nextBytes .unbounded ⟨0, 0xCAFEBABE⟩ n = some (p, x) → p.state = 0) ∧
    (nextBytes .unbounded ⟨0xCAFEBABF, 1⟩ n = some (p, x) → p.micro = [1, 6, 3, 16, 8, 4, 2].getD (n % 7) 0)

/-- 41_prng.md R116: `length` churns, the low byte of each output in call order, and the registers that many churns
leave. -/
def Obligations.BytesAreTheChurnStream : Prop :=
  ∀ (w : RegWidth) (p : Prng) (length : Nat),
    (streamFits w p length →
      ∃ bs : Cells Byte length, nextBytes w p length = some (streamRef p length, bs) ∧
        bs.cells = (List.range length).map (streamByte p)) ∧
    (¬ streamFits w p length → nextBytes w p length = none)

/-- 41_prng.md R119: an integer draw is the byte draw of `ceil(bits/8)` bytes read big-endian and masked, and leaves the
same registers. -/
def Obligations.IntegerDrawIsByteDraw : Prop :=
  ∀ (w : RegWidth) (p : Prng) (bits : Nat), 1 ≤ bits →
    nextInt w p bits = (nextBytes w p ((bits + 7) / 8)).map fun r =>
      (r.1, beSum r.2.cells % 2 ^ bits)

/-- 41_prng.md R123: drawing `a` bytes and then `b` bytes gives the bytes and the registers of drawing `a + b`; the same
does not hold of integer draws whose width is no multiple of 8. -/
def Obligations.ByteDrawsConcatenate : Prop :=
  (∀ (w : RegWidth) (p : Prng) (a b : Nat),
    ((nextBytes w p (a + b)).map fun r => (r.1, r.2.cells)) =
      (nextBytes w p a).bind fun x => (nextBytes w x.1 b).map fun y => (y.1, x.2.cells ++ y.2.cells)) ∧
  (∀ bits : Nat, bits % 8 ≠ 0 →
    ∃ (p q r t : Prng) (x y z : Nat),
      nextInt .unbounded p bits = some (q, x) ∧ nextInt .unbounded q bits = some (r, y) ∧
      nextInt .unbounded p (bits + bits) = some (t, z) ∧ z ≠ x * 2 ^ bits + y)

/-- 41_prng.md R124: how far the registers grow. After any draw of `k` bytes, at every width, they are within the two
bounds of the rule; so a key schedule's registers stay below 2^399 and 2^402 and an S-box generation's below 2^939 and
2^943; and no finite width holds every stream of U (70_reset_and_hazards.md R199): registers that fit it can overflow it
in one churn. -/
def Obligations.RegisterGrowth : Prop :=
  (∀ (w : RegWidth) (p q : Prng) (k : Nat) (bytes : Cells Byte k), nextBytes w p k = some (q, bytes) →
    q.micro ≤ microBound p k ∧ q.state ≤ stateBound p k ∧
    (p.state < 2 ^ 256 → p.micro < 2 ^ 256 → k ≤ 176 → q.micro < 2 ^ 399 ∧ q.state < 2 ^ 402) ∧
    (p.state < 2 ^ 128 → p.micro < 2 ^ 128 → k ≤ 1020 → q.micro < 2 ^ 939 ∧ q.state < 2 ^ 943)) ∧
  (∀ (n : Nat) (h : 0 < n), ∃ p : Prng,
    belowWidth (.finite n h) p.state ∧ belowWidth (.finite n h) p.micro ∧ nextBytes (.finite n h) p 1 = none)

/-- 41_prng.md R112: PSEED. FAULTED while FAULT = 1; otherwise both registers are loaded from the big-endian value of the
payload and `U.SEEDED` is 1; a value too large for the registers is OVERFLOW. -/
def Obligations.PseedResult : Prop :=
  ∀ (n : Nat) (s : State) (payload rest : List Byte),
    s.din = payload ++ rest → payload.length = n →
    (s.arch.fault = true → exec (.pseed n) s = .next (after s rest s.arch ⟨.faulted, []⟩)) ∧
    (s.arch.fault = false → seedFits s.arch.regWidth (beSum payload) →
      exec (.pseed n) s =
        .next (after s rest { s.arch with user := .seeded (seedRef (beSum payload)) } ⟨.ok, []⟩)) ∧
    (s.arch.fault = false → ¬ seedFits s.arch.regWidth (beSum payload) →
      exec (.pseed n) s =
        .next (after s rest { s.arch with user := .unseeded, fault := true } ⟨.overflow, []⟩))

/-- 41_prng.md R112, 10_state.md R23: PSEED is the only way out of the unseeded state. -/
def Obligations.OnlyPseedSeeds : Prop :=
  ∀ (i : Instr) (s t : State), exec i s = .next t → s.arch.uSeeded = false → t.arch.uSeeded = true →
    ∃ n, i = .pseed n

/-- 41_prng.md R117: PNEXTBYTES. FAULTED, then NOT_SEEDED; otherwise `length` bytes of the churn stream of U, which
advances by that many churns; OVERFLOW with a finite REG_WIDTH. -/
def Obligations.PnextbytesResult : Prop :=
  ∀ (length : Nat) (s : State),
    (s.arch.fault = true → exec (.pnextbytes length) s = .next (after s s.din s.arch ⟨.faulted, []⟩)) ∧
    (s.arch.fault = false → s.arch.user = .unseeded →
      exec (.pnextbytes length) s = .next (after s s.din s.arch ⟨.notSeeded, []⟩)) ∧
    (∀ p, s.arch.fault = false → s.arch.user = .seeded p → streamFits s.arch.regWidth p length →
      exec (.pnextbytes length) s =
        .next (after s s.din { s.arch with user := .seeded (streamRef p length) }
          ⟨.ok, (List.range length).map (streamByte p)⟩)) ∧
    (∀ p, s.arch.fault = false → s.arch.user = .seeded p → ¬ streamFits s.arch.regWidth p length →
      exec (.pnextbytes length) s =
        .next (after s s.din { s.arch with user := .unseeded, fault := true } ⟨.overflow, []⟩))

/-- 41_prng.md R120: PNEXTINT. FAULTED, then NOT_SEEDED, then ILLEGAL_OPERAND for 0 bits; otherwise the response bytes
are the churn bytes in order with the top `8*ceil(bits/8) - bits` bits of the first one cleared, and U advances by
`ceil(bits/8)` churns; OVERFLOW with a finite REG_WIDTH. -/
def Obligations.PnextintResult : Prop :=
  ∀ (bits : Nat) (s : State),
    (s.arch.fault = true → exec (.pnextint bits) s = .next (after s s.din s.arch ⟨.faulted, []⟩)) ∧
    (s.arch.fault = false → s.arch.user = .unseeded →
      exec (.pnextint bits) s = .next (after s s.din s.arch ⟨.notSeeded, []⟩)) ∧
    (∀ p, s.arch.fault = false → s.arch.user = .seeded p → bits = 0 →
      exec (.pnextint bits) s = .next (after s s.din s.arch ⟨.illegalOperand, []⟩)) ∧
    (∀ p, s.arch.fault = false → s.arch.user = .seeded p → 1 ≤ bits →
      streamFits s.arch.regWidth p ((bits + 7) / 8) →
      exec (.pnextint bits) s =
        .next (after s s.din { s.arch with user := .seeded (streamRef p ((bits + 7) / 8)) }
          ⟨.ok, (List.range ((bits + 7) / 8)).map fun k =>
            if k = 0 then BitVec.ofNat 8 ((streamByte p 0).toNat % 2 ^ (8 - (8 * ((bits + 7) / 8) - bits)))
            else streamByte p k⟩)) ∧
    (∀ p, s.arch.fault = false → s.arch.user = .seeded p → 1 ≤ bits →
      ¬ streamFits s.arch.regWidth p ((bits + 7) / 8) →
      exec (.pnextint bits) s =
        .next (after s s.din { s.arch with user := .unseeded, fault := true } ⟨.overflow, []⟩))

/-- 41_prng.md R121: after PSEED with the same seed value, the same sequence of PRNG commands gives the same responses
and the same U, whatever U and C held before and whatever cipher commands are interleaved. -/
def Obligations.SameSeedSameStream : Prop :=
  ∀ (a b a' b' : Arch) (n m : Nat) (x y : List Byte) (cs ds : List (Instr × List Byte))
    (rs ts : List (Instr × Response)),
    a.regWidth = .unbounded → b.regWidth = .unbounded → a.fault = false → b.fault = false →
    beSum x = beSum y →
    (cs.filter fun c => isPrngCommand c.1) = (ds.filter fun c => isPrngCommand c.1) →
    answers a ((.pseed n, x) :: cs) = some (a', rs) →
    answers b ((.pseed m, y) :: ds) = some (b', ts) →
    a'.user = b'.user ∧
    ((rs.drop 1).filter fun r => isPrngCommand r.1) = ((ts.drop 1).filter fun r => isPrngCommand r.1)

/-! ## The key schedule -/

/-- 42_key_schedule.md R132: KEYLOAD. FAULTED, then INVALID_KEY_SIZE with C unchanged; otherwise the key, its length and
its eleven round keys are written, round key `i` byte `k` being churn byte `16*i + k` of a context seeded with the key's
big-endian value (R131); on OVERFLOW C is unchanged. -/
def Obligations.KeyloadResult : Prop :=
  ∀ (n : Nat) (s : State) (key rest : List Byte),
    s.din = key ++ rest → key.length = n →
    (s.arch.fault = true → exec (.keyload n) s = .next (after s rest s.arch ⟨.faulted, []⟩)) ∧
    (s.arch.fault = false → n ∉ [16, 24, 32] →
      exec (.keyload n) s = .next (after s rest s.arch ⟨.invalidKeySize, []⟩)) ∧
    (s.arch.fault = false → n ∈ [16, 24, 32] → scheduleFits s.arch.regWidth key →
      ∃ rk : RoundKeys,
        (∀ (i : Fin 11) (k : Fin 16),
          (rk.read i).read k = streamByte (seedRef (beSum key)) (16 * i.val + k.val)) ∧
        exec (.keyload n) s =
          .next (after s rest { s.arch with cipher := .loaded ⟨BitVec.ofNat 6 n, key, rk⟩ } ⟨.ok, []⟩)) ∧
    (s.arch.fault = false → n ∈ [16, 24, 32] → ¬ scheduleFits s.arch.regWidth key →
      exec (.keyload n) s = .next (after s rest { s.arch with fault := true } ⟨.overflow, []⟩))

/-- 42_key_schedule.md R134(b), R131(a): the key schedule depends on the key only through its big-endian value, so leading
zero bytes do not change the round keys. -/
def Obligations.RoundKeysOnlyThroughValue : Prop :=
  (∀ (w : RegWidth) (x y : List Byte), beSum x = beSum y → expandKey w x = expandKey w y) ∧
  (∀ (w : RegWidth) (z : Nat) (x : List Byte), expandKey w (List.replicate z 0 ++ x) = expandKey w x)

/-- 42_key_schedule.md R133: RDRK. FAULTED, then NO_KEY, then ILLEGAL_OPERAND above 10; otherwise the sixteen bytes of
the round key, and nothing written. -/
def Obligations.RdrkResult : Prop :=
  ∀ (i : Nat) (s : State),
    (s.arch.fault = true → exec (.rdrk i) s = .next (after s s.din s.arch ⟨.faulted, []⟩)) ∧
    (s.arch.fault = false → s.arch.cipher = .noKey →
      exec (.rdrk i) s = .next (after s s.din s.arch ⟨.noKey, []⟩)) ∧
    (∀ k, s.arch.fault = false → s.arch.cipher = .loaded k → 10 < i →
      exec (.rdrk i) s = .next (after s s.din s.arch ⟨.illegalOperand, []⟩)) ∧
    (∀ k, s.arch.fault = false → s.arch.cipher = .loaded k → i ≤ 10 →
      exec (.rdrk i) s =
        .next (after s s.din s.arch ⟨.ok, (List.range 16).map fun j => BitVec.ofNat 8 (keyByte k.rk i j)⟩))

/-- 70_reset_and_hazards.md R199: registers of 402 bits never overflow in KEYLOAD, and registers of 943 bits never in
ENCRYPT, DECRYPT, RDRK, SBOXGEN or ISBOXGEN. -/
def Obligations.SufficientWidths : Prop :=
  ∀ (i : Instr) (s t : State) (r : Response) (w : Nat) (hw : 0 < w),
    s.arch.regWidth = .finite w hw → exec i s = .next t → t.resp = s.resp ++ [r] →
    ((∃ n, i = .keyload n) → 402 ≤ w → r.status ≠ .overflow) ∧
    (isReadOnlyCommand i = true → 943 ≤ w → r.status ≠ .overflow)

/-! ## The S-box generator -/

/-- 43_sbox.md R140: the seed is the round key's value XOR an exact product, below 2^128, and the XOR touches only the low
33 bits; the ten products are those listed. -/
def Obligations.SboxSeedRule : Prop :=
  (∀ (k : Block) (r : Nat), sboxSeed k r = beSum k.cells ^^^ (r * 0x31415926)) ∧
  (∀ (k : Block) (r : Nat), r ≤ 10 →
    sboxSeed k r < 2 ^ 128 ∧ sboxSeed k r / 2 ^ 33 = beSum k.cells / 2 ^ 33) ∧
  ((List.range 11).drop 1).map (fun r => r * Config.cRound) =
    [0x31415926, 0x6282B24C, 0x93C40B72, 0xC5056498, 0xF646BDBE, 0x1278816E4, 0x158C9700A, 0x18A0AC930,
     0x1BB4C2256, 0x1EC8D7B7C]

/-- 43_sbox.md R141: the forward S-box is the Fisher-Yates shuffle of the identity from index 255 down to 1, draw `d`
being four churn bytes of a context seeded by R140, reduced modulo the index plus one; it has no result exactly where a
register overflows. -/
def Obligations.SboxIsFisherYates : Prop :=
  ∀ (w : RegWidth) (k : Block) (r : Nat),
    (sboxFits w k r →
      ∃ t : SBox, deriveSbox w k r = some t ∧ ∀ x : Fin 256, (t.read x).toNat = sboxRef k r x.val) ∧
    (¬ sboxFits w k r → deriveSbox w k r = none)

/-- 43_sbox.md R142: every derived table is a bijection of 0 to 255. -/
def Obligations.SboxIsPermutation : Prop :=
  ∀ (w : RegWidth) (k : Block) (r : Nat) (t : SBox),
    deriveSbox w k r = some t → Function.Bijective t.at

/-- 43_sbox.md R143: the inverse table of a permutation undoes it on both sides. -/
def Obligations.InverseSboxUndoes : Prop :=
  ∀ t : SBox, Function.Bijective t.at →
    ∀ x : Byte, (invertSbox t).at (t.at x) = x ∧ t.at ((invertSbox t).at x) = x

/-- 43_sbox.md R144: SBOXGEN. FAULTED, then NO_KEY, then ILLEGAL_OPERAND outside 1 to 10; otherwise the 256 entries of
the S-box of round `r` in index order, and nothing written; OVERFLOW with a finite REG_WIDTH. -/
def Obligations.SboxgenResult : Prop :=
  ∀ (r : Nat) (s : State),
    (s.arch.fault = true → exec (.sboxgen r) s = .next (after s s.din s.arch ⟨.faulted, []⟩)) ∧
    (s.arch.fault = false → s.arch.cipher = .noKey →
      exec (.sboxgen r) s = .next (after s s.din s.arch ⟨.noKey, []⟩)) ∧
    (∀ k, s.arch.fault = false → s.arch.cipher = .loaded k → (r < 1 ∨ 10 < r) →
      exec (.sboxgen r) s = .next (after s s.din s.arch ⟨.illegalOperand, []⟩)) ∧
    (∀ (k : KeyCtx) (h : r < 11), s.arch.fault = false → s.arch.cipher = .loaded k → 1 ≤ r →
      sboxFits s.arch.regWidth (k.rk.read ⟨r, h⟩) r →
      exec (.sboxgen r) s =
        .next (after s s.din s.arch
          ⟨.ok, (List.range 256).map fun x => BitVec.ofNat 8 (sboxRef (k.rk.read ⟨r, h⟩) r x)⟩)) ∧
    (∀ (k : KeyCtx) (h : r < 11), s.arch.fault = false → s.arch.cipher = .loaded k → 1 ≤ r →
      ¬ sboxFits s.arch.regWidth (k.rk.read ⟨r, h⟩) r →
      exec (.sboxgen r) s = .next (after s s.din { s.arch with fault := true } ⟨.overflow, []⟩))

/-- 43_sbox.md R145: ISBOXGEN. As SBOXGEN, but the 256 bytes map each substituted byte back: the byte at the place the
S-box of round `r` sends `x` to is `x`. -/
def Obligations.IsboxgenResult : Prop :=
  ∀ (r : Nat) (s : State),
    (s.arch.fault = true → exec (.isboxgen r) s = .next (after s s.din s.arch ⟨.faulted, []⟩)) ∧
    (s.arch.fault = false → s.arch.cipher = .noKey →
      exec (.isboxgen r) s = .next (after s s.din s.arch ⟨.noKey, []⟩)) ∧
    (∀ k, s.arch.fault = false → s.arch.cipher = .loaded k → (r < 1 ∨ 10 < r) →
      exec (.isboxgen r) s = .next (after s s.din s.arch ⟨.illegalOperand, []⟩)) ∧
    (∀ (k : KeyCtx) (h : r < 11), s.arch.fault = false → s.arch.cipher = .loaded k → 1 ≤ r →
      sboxFits s.arch.regWidth (k.rk.read ⟨r, h⟩) r →
      ∃ ti : List Byte, ti.length = 256 ∧
        (∀ x < 256, byteAt ti (sboxRef (k.rk.read ⟨r, h⟩) r x) = x) ∧
        exec (.isboxgen r) s = .next (after s s.din s.arch ⟨.ok, ti⟩)) ∧
    (∀ (k : KeyCtx) (h : r < 11), s.arch.fault = false → s.arch.cipher = .loaded k → 1 ≤ r →
      ¬ sboxFits s.arch.regWidth (k.rk.read ⟨r, h⟩) r →
      exec (.isboxgen r) s = .next (after s s.din { s.arch with fault := true } ⟨.overflow, []⟩))

/-! ## The round pipeline -/

/-- 44_round_pipeline.md R151, R153, R155: each stage has its inverse. AddRoundKey is its own; InvShiftRows and
ShiftRows undo each other; InvSubBytes with the inverse table undoes SubBytes. -/
def Obligations.StagesHaveInverses : Prop :=
  (∀ k b : Block, addRoundKey k (addRoundKey k b) = b) ∧
  (∀ b : Block, invShiftRows (shiftRows b) = b ∧ shiftRows (invShiftRows b) = b) ∧
  (∀ (t : SBox) (b : Block), Function.Bijective t.at → invSubBytes (invertSbox t) (subBytes t b) = b)

/-- 44_round_pipeline.md R154, R155: byte `k` after ShiftRows is byte `SR[k]` before, byte `k` after InvShiftRows is byte
`ISR[k]` before, and `SR` takes the byte of row `r`, column `c` from column `(c + r) mod 4` of that row. -/
def Obligations.RowShiftTables : Prop :=
  ∀ (b : Block) (k : Fin 16),
    byteAt (shiftRows b).cells k.val =
      byteAt b.cells ([0, 5, 10, 15, 4, 9, 14, 3, 8, 13, 2, 7, 12, 1, 6, 11].getD k.val 0) ∧
    byteAt (invShiftRows b).cells k.val =
      byteAt b.cells ([0, 13, 10, 7, 4, 1, 14, 11, 8, 5, 2, 15, 12, 9, 6, 3].getD k.val 0) ∧
    ∀ r c : Fin 4,
      byteAt (shiftRows b).cells (r.val + 4 * c.val) =
        byteAt b.cells (r.val + 4 * ((c.val + r.val) % 4)) ∧
      byteAt (invShiftRows b).cells (r.val + 4 * c.val) =
        byteAt b.cells (r.val + 4 * ((c.val + 4 - r.val) % 4))

/-- 44_round_pipeline.md R158: ENCRYPT. FAULTED, then NO_KEY, then INVALID_BLOCK_SIZE; otherwise the block after the ten
rounds of R156, and nothing written; OVERFLOW with a finite REG_WIDTH. -/
def Obligations.EncryptResult : Prop :=
  ∀ (n : Nat) (s : State) (payload rest : List Byte),
    s.din = payload ++ rest → payload.length = n →
    (s.arch.fault = true → exec (.encrypt n) s = .next (after s rest s.arch ⟨.faulted, []⟩)) ∧
    (s.arch.fault = false → s.arch.cipher = .noKey →
      exec (.encrypt n) s = .next (after s rest s.arch ⟨.noKey, []⟩)) ∧
    (∀ k, s.arch.fault = false → s.arch.cipher = .loaded k → n ≠ 16 →
      exec (.encrypt n) s = .next (after s rest s.arch ⟨.invalidBlockSize, []⟩)) ∧
    (∀ k, s.arch.fault = false → s.arch.cipher = .loaded k → n = 16 → roundsFit s.arch.regWidth k.rk →
      exec (.encrypt n) s =
        .next (after s rest s.arch
          ⟨.ok, (List.range 16).map fun j =>
            BitVec.ofNat 8 (encryptRef (sboxesRef k.rk) (keyByte k.rk) (byteAt payload) 10 j)⟩)) ∧
    (∀ k, s.arch.fault = false → s.arch.cipher = .loaded k → n = 16 → ¬ roundsFit s.arch.regWidth k.rk →
      exec (.encrypt n) s = .next (after s rest { s.arch with fault := true } ⟨.overflow, []⟩))

/-- 44_round_pipeline.md R159: DECRYPT. The checks of ENCRYPT; otherwise the block the ten inverse rounds of R157 give,
with any functions that undo the S-boxes, which is the block the ten rounds of R156 take to the payload, and nothing
written; OVERFLOW with a finite REG_WIDTH. -/
def Obligations.DecryptResult : Prop :=
  ∀ (n : Nat) (s : State) (payload rest : List Byte),
    s.din = payload ++ rest → payload.length = n →
    (s.arch.fault = true → exec (.decrypt n) s = .next (after s rest s.arch ⟨.faulted, []⟩)) ∧
    (s.arch.fault = false → s.arch.cipher = .noKey →
      exec (.decrypt n) s = .next (after s rest s.arch ⟨.noKey, []⟩)) ∧
    (∀ k, s.arch.fault = false → s.arch.cipher = .loaded k → n ≠ 16 →
      exec (.decrypt n) s = .next (after s rest s.arch ⟨.invalidBlockSize, []⟩)) ∧
    (∀ k, s.arch.fault = false → s.arch.cipher = .loaded k → n = 16 → roundsFit s.arch.regWidth k.rk →
      ∃ plain : List Byte, plain.length = 16 ∧
        (∀ isbox : Nat → Nat → Nat,
          (∀ r, 1 ≤ r → r ≤ 10 → ∀ x < 256, isbox r (sboxesRef k.rk r x) = x) →
          ∀ j < 16, byteAt plain j = decryptRef isbox (keyByte k.rk) (byteAt payload) 10 j ^^^ keyByte k.rk 0 j) ∧
        (∀ j < 16, encryptRef (sboxesRef k.rk) (keyByte k.rk) (byteAt plain) 10 j = byteAt payload j) ∧
        exec (.decrypt n) s = .next (after s rest s.arch ⟨.ok, plain⟩)) ∧
    (∀ k, s.arch.fault = false → s.arch.cipher = .loaded k → n = 16 → ¬ roundsFit s.arch.regWidth k.rk →
      exec (.decrypt n) s = .next (after s rest { s.arch with fault := true } ⟨.overflow, []⟩))

/-- 44_round_pipeline.md R160: under one key, DECRYPT of what ENCRYPT returned gives the plaintext back, and ENCRYPT of
what DECRYPT returned gives the ciphertext back, for every block of 16 bytes. -/
def Obligations.CipherRoundTrip : Prop :=
  ∀ (s : State) (k : KeyCtx) (x : List Byte),
    s.arch.fault = false → s.arch.cipher = .loaded k → roundsFit s.arch.regWidth k.rk → x.length = 16 →
    (∃ y : List Byte, y.length = 16 ∧
      exec (.encrypt 16) { s with din := x } = .next { s with din := [], resp := s.resp ++ [⟨.ok, y⟩] } ∧
      exec (.decrypt 16) { s with din := y } = .next { s with din := [], resp := s.resp ++ [⟨.ok, x⟩] }) ∧
    (∃ y : List Byte, y.length = 16 ∧
      exec (.decrypt 16) { s with din := x } = .next { s with din := [], resp := s.resp ++ [⟨.ok, y⟩] } ∧
      exec (.encrypt 16) { s with din := y } = .next { s with din := [], resp := s.resp ++ [⟨.ok, x⟩] })

/-- 44_round_pipeline.md R161: changing one plaintext byte changes exactly one ciphertext byte: byte `j` when `j` is even
and byte `(j + 8) mod 16` when it is odd. -/
def Obligations.ByteLocality : Prop :=
  ∀ (w : RegWidth) (rk : RoundKeys) (x x' y y' : Block) (j : Fin 16),
    encryptBlock w rk x = some y → encryptBlock w rk x' = some y' →
    x.read j ≠ x'.read j → (∀ i, i ≠ j → x.read i = x'.read i) →
    ∀ i : Fin 16, (y.read i ≠ y'.read i ↔
      i.val = if j.val % 2 = 0 then j.val else (j.val + 8) % 16)

/-! ## Byte order and pseudo-commands -/

/-- 00_scope.md R13: `BE` is the big-endian sum, 0 of the empty sequence; `bytesBE` is its inverse on values that fit;
leading zero bytes do not change the value. -/
def Obligations.BigEndianConversions : Prop :=
  (∀ bs : List Byte, beNat bs = beSum bs) ∧ beNat [] = 0 ∧
  (∀ v n : Nat, v < 256 ^ n → (bytesBE v n).length = n ∧ beSum (bytesBE v n) = v) ∧
  (∀ bs : List Byte, bytesBE (beSum bs) bs.length = bs) ∧
  (∀ bs : List Byte, beSum (0 :: bs) = beSum bs)

/-- 30_encoding.md R84: each pseudo-command assembles to the word the table gives it, PSEEDI to 0x10000000 plus the length
of its payload (below 2^24, which is what ARG holds); and PSEEDI supplies the least number of bytes that hold its value,
whose big-endian value it is. -/
def Obligations.PseudoCommandsAssemble : Prop :=
  (∀ n : Nat, n < 2 ^ 24 → (encode (Pseudo.expand (.reseed n))).toNat = 0x10000000 + n) ∧
  encode (Pseudo.expand .pnextu32) = 0x11000020#32 ∧
  encode (Pseudo.expand .pnextbyte) = 0x12000001#32 ∧
  (∀ v : Nat, Pseudo.expand (.pseedi v) = .pseed (Pseudo.payload (.pseedi v)).length ∧
    beSum (Pseudo.payload (.pseedi v)) = v ∧
    (∀ bs : List Byte, beSum bs = v → (Pseudo.payload (.pseedi v)).length ≤ bs.length) ∧
    ((Pseudo.payload (.pseedi v)).length < 2 ^ 24 →
      (encode (Pseudo.expand (.pseedi v))).toNat = 0x10000000 + (Pseudo.payload (.pseedi v)).length))
end

