-- ==== Sys2Proof/Laws/Cells.lean ====
section
/-! SUPPORT. Read-over-write laws of the internal byte memories, and the arithmetic of byte order. -/

namespace Sys2Proof

variable {α : Type} {n m : Nat}

/-- Two memories are equal when every cell reads the same. -/
theorem Cells.ext_read {a b : Cells α n} (h : ∀ i, a.read i = b.read i) : a = b := by
  obtain ⟨la, ha⟩ := a
  obtain ⟨lb, hb⟩ := b
  congr 1
  refine List.ext_getElem (by omega) fun i h₁ h₂ => ?_
  simpa [Cells.read] using h ⟨i, by omega⟩

theorem Cells.read_eq_getElem (a : Cells α n) (i : Fin n) :
    a.read i = a.cells[i.val]'(by rw [a.size]; exact i.isLt) := rfl

theorem Cells.getElem?_cells (a : Cells α n) (i : Fin n) : a.cells[i.val]? = some (a.read i) := by
  rw [Cells.read_eq_getElem, List.getElem?_eq_getElem]

@[simp] theorem Cells.read_write_same (a : Cells α n) (i : Fin n) (v : α) : (a.write i v).read i = v := by
  rw [Cells.read_eq_getElem]
  exact List.getElem_set_self _

theorem Cells.read_write_other (a : Cells α n) {i j : Fin n} (v : α) (h : i ≠ j) :
    (a.write i v).read j = a.read j := by
  have : i.val ≠ j.val := fun e => h (Fin.ext e)
  rw [Cells.read_eq_getElem, Cells.read_eq_getElem]
  exact List.getElem_set_ne this _

theorem Cells.read_write (a : Cells α n) (i j : Fin n) (v : α) :
    (a.write i v).read j = if i = j then v else a.read j := by
  split
  · next h => rw [h, Cells.read_write_same]
  · next h => exact Cells.read_write_other a v h

@[simp] theorem Cells.read_ofFn (f : Fin n → α) (i : Fin n) : (Cells.ofFn f).read i = f i := by
  rw [Cells.read_eq_getElem]
  simp [Cells.ofFn]

@[simp] theorem Cells.read_cast (h : n = m) (a : Cells α n) (i : Fin m) :
    (a.cast h).read i = a.read (i.cast h.symm) := rfl

@[simp] theorem Cells.cells_cast (h : n = m) (a : Cells α n) : (a.cast h).cells = a.cells := rfl
@[simp] theorem Cells.cells_nil : (Cells.nil : Cells α 0).cells = [] := rfl
@[simp] theorem Cells.cells_cons (v : α) (a : Cells α n) : (Cells.cons v a).cells = v :: a.cells := rfl
@[simp] theorem Cells.length_cells (a : Cells α n) : a.cells.length = n := a.size

@[simp] theorem Cells.read_cons_zero (v : α) (a : Cells α n) : (Cells.cons v a).read 0 = v := rfl

@[simp] theorem Cells.read_cons_succ (v : α) (a : Cells α n) (i : Fin n) :
    (Cells.cons v a).read i.succ = a.read i := rfl

/-- The table after a swap (43_sbox.md R141). -/
theorem Cells.read_swap (a : Cells α n) (i j k : Fin n) :
    (a.swap i j).read k = if k = j then a.read i else if k = i then a.read j else a.read k := by
  unfold Cells.swap
  rw [Cells.read_write, Cells.read_write]
  simp only [eq_comm]

@[simp] theorem SBox.at_identity (x : Byte) : SBox.identity.at x = x := by
  simp [SBox.at, SBox.identity]

@[simp] theorem low8_toNat (v : Nat) : (low8 v).toNat = v % 256 := BitVec.toNat_ofNat v 8

@[simp] theorem beNat_nil : beNat [] = 0 := rfl

theorem beNat_concat (bs : List Byte) (b : Byte) : beNat (bs ++ [b]) = beNat bs * 256 + b.toNat := by
  simp [beNat]

@[simp] theorem length_bytesBE (v n : Nat) : (bytesBE v n).length = n := by simp [bytesBE]

end Sys2Proof
end

