-- ==== Sys2Proof/Laws/Decode.lean ====
section
/-! SUPPORT. The two fields of a word read back from its encoding. -/

namespace Sys2Proof

@[simp] theorem opcOf_encode (i : Instr) : opcOf (encode i) = i.opc := BitVec.extractLsb'_append_eq_left

theorem argOf_encode (i : Instr) : argOf (encode i) = i.arg % 2 ^ 24 := by
  have h : (encode i).extractLsb' 0 24 = BitVec.ofNat 24 i.arg := BitVec.extractLsb'_append_eq_right
  unfold argOf
  rw [h, BitVec.toNat_ofNat]

end Sys2Proof
end

