-- ==== Sys2Proof/Laws/State.lean ====
section
/-! SUPPORT. One lemma per field per update of the state, all true by rfl, so that no later proof unfolds an update. -/

namespace Sys2Proof.Machine

variable (a : Arch) (p : Prng) (k : KeyCtx) (w : RegWidth)

@[simp] theorem Arch.setUser_regWidth : (a.setUser p).regWidth = a.regWidth := rfl
@[simp] theorem Arch.setUser_user : (a.setUser p).user = .seeded p := rfl
@[simp] theorem Arch.setUser_cipher : (a.setUser p).cipher = a.cipher := rfl
@[simp] theorem Arch.setUser_fault : (a.setUser p).fault = a.fault := rfl

@[simp] theorem Arch.clearUser_regWidth : a.clearUser.regWidth = a.regWidth := rfl
@[simp] theorem Arch.clearUser_user : a.clearUser.user = .unseeded := rfl
@[simp] theorem Arch.clearUser_cipher : a.clearUser.cipher = a.cipher := rfl
@[simp] theorem Arch.clearUser_fault : a.clearUser.fault = a.fault := rfl

@[simp] theorem Arch.setCipher_regWidth : (a.setCipher k).regWidth = a.regWidth := rfl
@[simp] theorem Arch.setCipher_user : (a.setCipher k).user = a.user := rfl
@[simp] theorem Arch.setCipher_cipher : (a.setCipher k).cipher = .loaded k := rfl
@[simp] theorem Arch.setCipher_fault : (a.setCipher k).fault = a.fault := rfl

@[simp] theorem Arch.setFault_regWidth : a.setFault.regWidth = a.regWidth := rfl
@[simp] theorem Arch.setFault_user : a.setFault.user = a.user := rfl
@[simp] theorem Arch.setFault_cipher : a.setFault.cipher = a.cipher := rfl
@[simp] theorem Arch.setFault_fault : a.setFault.fault = true := rfl

@[simp] theorem Arch.reset_regWidth : (Arch.reset w).regWidth = w := rfl
@[simp] theorem Arch.reset_user : (Arch.reset w).user = .unseeded := rfl
@[simp] theorem Arch.reset_cipher : (Arch.reset w).cipher = .noKey := rfl
@[simp] theorem Arch.reset_fault : (Arch.reset w).fault = false := rfl

@[simp] theorem State.resetOf_arch : (State.resetOf w).arch = Arch.reset w := rfl
@[simp] theorem State.resetOf_cmd : (State.resetOf w).cmd = [] := rfl
@[simp] theorem State.resetOf_din : (State.resetOf w).din = [] := rfl
@[simp] theorem State.resetOf_resp : (State.resetOf w).resp = [] := rfl

variable (s : State) (word : Word) (payload : List Byte)

@[simp] theorem presentFirst_arch : (presentFirst word payload s).arch = s.arch := rfl
@[simp] theorem presentFirst_cmd : (presentFirst word payload s).cmd = word :: s.cmd := rfl
@[simp] theorem presentFirst_din : (presentFirst word payload s).din = payload ++ s.din := rfl
@[simp] theorem presentFirst_resp : (presentFirst word payload s).resp = s.resp := rfl

/-! What each flag reads as after each operation that writes one (10_state.md R23, R28, R29). -/

@[simp] theorem Arch.uSeeded_setUser : (a.setUser p).uSeeded = true := rfl
@[simp] theorem Arch.uSeeded_clearUser : a.clearUser.uSeeded = false := rfl
@[simp] theorem Arch.uSeeded_setCipher : (a.setCipher k).uSeeded = a.uSeeded := rfl
@[simp] theorem Arch.uSeeded_setFault : a.setFault.uSeeded = a.uSeeded := rfl
@[simp] theorem Arch.cKeyvalid_setUser : (a.setUser p).cKeyvalid = a.cKeyvalid := rfl
@[simp] theorem Arch.cKeyvalid_clearUser : a.clearUser.cKeyvalid = a.cKeyvalid := rfl
@[simp] theorem Arch.cKeyvalid_setCipher : (a.setCipher k).cKeyvalid = true := rfl
@[simp] theorem Arch.cKeyvalid_setFault : a.setFault.cKeyvalid = a.cKeyvalid := rfl

theorem Arch.uSeeded_eq_true : a.uSeeded = true ↔ ∃ q, a.user = .seeded q := by
  unfold Arch.uSeeded; cases a.user <;> simp

theorem Arch.cKeyvalid_eq_true : a.cKeyvalid = true ↔ ∃ q, a.cipher = .loaded q := by
  unfold Arch.cKeyvalid; cases a.cipher <;> simp

end Sys2Proof.Machine
end

