-- ==== Sys2Proof/Laws/Ops.lean ====
section
/-! SUPPORT. What each shared operation can do, said once: taking a payload, one transaction, and the checks. -/

namespace Sys2Proof.Machine

/-- What `respond`, `raise` and the two overflows leave and answer. -/
@[simp] theorem respond_fst (a : Arch) (bs : List Byte) : (respond a bs).1 = a := rfl
@[simp] theorem respond_snd (a : Arch) (bs : List Byte) : (respond a bs).2 = ⟨.ok, bs⟩ := rfl
@[simp] theorem raise_fst (e : Status) (a : Arch) : (raise e a).1 = a := rfl
@[simp] theorem raise_snd (e : Status) (a : Arch) : (raise e a).2 = ⟨e, []⟩ := rfl
@[simp] theorem overflow_fst (a : Arch) : (overflow a).1 = a.setFault := rfl
@[simp] theorem overflow_snd (a : Arch) : (overflow a).2 = ⟨.overflow, []⟩ := rfl
@[simp] theorem overflowUser_fst (a : Arch) : (overflowUser a).1 = a.clearUser.setFault := rfl
@[simp] theorem overflowUser_snd (a : Arch) : (overflowUser a).2 = ⟨.overflow, []⟩ := rfl

/-- DIN gives up exactly the bytes called for, its first ones (30_encoding.md R72). -/
theorem takePayload_eq_some {n : Nat} {din rest : List Byte} {c : Cells Byte n} :
    takePayload n din = some (c, rest) ↔ din = c.cells ++ rest := by
  unfold takePayload
  constructor
  · intro h
    split at h
    · cases h; simp
    · cases h
  · intro h
    subst h
    rw [dif_pos (by simp)]
    have htake : (c.cells ++ rest).take n = c.cells := List.take_left' c.size
    have hdrop : (c.cells ++ rest).drop n = rest := List.drop_left' c.size
    simp [hdrop, htake]

theorem takePayload_eq_none {n : Nat} {din : List Byte} : takePayload n din = none ↔ din.length < n := by
  unfold takePayload
  split <;> simp_all

/-- A transaction whose payload is there answers a next state. -/
theorem transact_append {n : Nat} (run : Cells Byte n → Arch → Answer) (s : State) (c : Cells Byte n)
    {rest : List Byte} (h : s.din = c.cells ++ rest) :
    transact n run s = .next { s with
      arch := (run c s.arch).1, din := rest, resp := s.resp ++ [(run c s.arch).2] } := by
  unfold transact
  rw [takePayload_eq_some.mpr h]

/-- A transaction that takes no payload always answers a next state. -/
theorem transact_zero (run : Cells Byte 0 → Arch → Answer) (s : State) :
    transact 0 run s = .next { s with
      arch := (run Cells.nil s.arch).1, resp := s.resp ++ [(run Cells.nil s.arch).2] } :=
  transact_append run s Cells.nil rfl

/-- A transaction whose payload is not there is no command (30_encoding.md R72). -/
theorem transact_short {n : Nat} (run : Cells Byte n → Arch → Answer) (s : State) (h : s.din.length < n) :
    transact n run s = .refused .payloadShort := by
  unfold transact
  rw [takePayload_eq_none.mpr h]

/-- Everything a transaction can do when it answers a next state. -/
theorem transact_next {n : Nat} {run : Cells Byte n → Arch → Answer} {s t : State}
    (h : transact n run s = .next t) :
    ∃ (c : Cells Byte n) (rest : List Byte), s.din = c.cells ++ rest ∧
      t = { s with arch := (run c s.arch).1, din := rest, resp := s.resp ++ [(run c s.arch).2] } := by
  unfold transact at h
  split at h
  · cases h
  · next c rest hp => exact ⟨c, rest, takePayload_eq_some.mp hp, by injection h with h; exact h.symm⟩

/-- A transaction never stops CORE: it faults in no state. -/
theorem transact_ne_fault {n : Nat} (run : Cells Byte n → Arch → Answer) (s : State) (f : Fault) :
    transact n run s ≠ .fault f := nomatch f

@[simp] theorem unlessFaulted_of_fault {a : Arch} {r : Answer} (h : a.fault = true) :
    unlessFaulted a r = raise .faulted a := by simp [unlessFaulted, h]

@[simp] theorem unlessFaulted_of_ok {a : Arch} {r : Answer} (h : a.fault = false) :
    unlessFaulted a r = r := by simp [unlessFaulted, h]

@[simp] theorem withUser_of_unseeded {a : Arch} {f : Prng → Answer} (h : a.user = .unseeded) :
    withUser a f = raise .notSeeded a := by simp [withUser, h]

@[simp] theorem withUser_of_seeded {a : Arch} {f : Prng → Answer} {p : Prng} (h : a.user = .seeded p) :
    withUser a f = f p := by simp [withUser, h]

@[simp] theorem withKey_of_noKey {a : Arch} {f : RoundKeys → Answer} (h : a.cipher = .noKey) :
    withKey a f = raise .noKey a := by simp [withKey, h]

@[simp] theorem withKey_of_loaded {a : Arch} {f : RoundKeys → Answer} {k : KeyCtx} (h : a.cipher = .loaded k) :
    withKey a f = f k.rk := by simp [withKey, h]

/-- Everything the first check can do. -/
theorem unlessFaulted_cases (a : Arch) (r : Answer) :
    (a.fault = true ∧ unlessFaulted a r = raise .faulted a) ∨ (a.fault = false ∧ unlessFaulted a r = r) := by
  cases h : a.fault <;> simp [h]

/-- Everything the seeded check can do. -/
theorem withUser_cases (a : Arch) (f : Prng → Answer) :
    (a.user = .unseeded ∧ withUser a f = raise .notSeeded a) ∨
    (∃ p, a.user = .seeded p ∧ withUser a f = f p) := by
  cases h : a.user <;> simp [h]

/-- Everything the key check can do. -/
theorem withKey_cases (a : Arch) (f : RoundKeys → Answer) :
    (a.cipher = .noKey ∧ withKey a f = raise .noKey a) ∨
    (∃ k, a.cipher = .loaded k ∧ withKey a f = f k.rk) := by
  cases h : a.cipher <;> simp [h]

/-- With no command word on CMD nothing is accepted. -/
@[simp] theorem fetch_nil {s : State} (h : s.cmd = []) : fetch s = none := by simp [fetch, h]

/-- The oldest command word is accepted first. -/
@[simp] theorem fetch_cons {s : State} {w : Word} {rest : List Word} (h : s.cmd = w :: rest) :
    fetch s = some (w, { s with cmd := rest }) := by simp [fetch, h]

end Sys2Proof.Machine
end

