-- ==== Sys2Proof/Laws/PerInstr.lean ====
section
/-! SUPPORT. Statements per instruction. Family EncodeFields: the word of a command carries its operation code in
bits 31:24 and its operand in bits 23:0 (30_encoding.md R70). -/

namespace Sys2Proof.Laws.EncodeFields

/-- The two fields of the encoding are the command's own. -/
def Statement (i : Instr) : Prop :=
  i.WellFormed → opcOf (encode i) = i.opc ∧ argOf (encode i) = i.arg

theorem of_wellFormed (i : Instr) : Statement i := fun h =>
  ⟨opcOf_encode i, by rw [argOf_encode, Nat.mod_eq_of_lt h]⟩

theorem pseed (n : Nat) : Statement (.pseed n) := of_wellFormed _
theorem pnextint (bits : Nat) : Statement (.pnextint bits) := of_wellFormed _
theorem pnextbytes (length : Nat) : Statement (.pnextbytes length) := of_wellFormed _
theorem keyload (n : Nat) : Statement (.keyload n) := of_wellFormed _
theorem encrypt (n : Nat) : Statement (.encrypt n) := of_wellFormed _
theorem decrypt (n : Nat) : Statement (.decrypt n) := of_wellFormed _
theorem rdrk (i : Nat) : Statement (.rdrk i) := of_wellFormed _
theorem sboxgen (r : Nat) : Statement (.sboxgen r) := of_wellFormed _
theorem isboxgen (r : Nat) : Statement (.isboxgen r) := of_wellFormed _

end Sys2Proof.Laws.EncodeFields
end

