-- ==== Sys2Proof/Laws/Prng.lean ====
section
/-! SUPPORT. The PRNG and what is built on it: with unbounded registers nothing overflows, and how the recursions
unfold by one churn. -/

namespace Sys2Proof.Machine

@[simp] theorem fits_unbounded (v : Nat) : fits .unbounded v = true := rfl

theorem fits_finite {w : Nat} {hw : 0 < w} {v : Nat} : fits (.finite w hw) v = true ↔ v < 2 ^ w := by
  simp [fits]

/-- An assignment either stores the exact value, which fits, or overflows (60_exceptions.md R178). -/
theorem assign_eq_some {w : RegWidth} {v u : Nat} : assign w v = some u ↔ fits w v = true ∧ u = v := by
  unfold assign
  split
  · next h => exact ⟨fun e => ⟨h, (Option.some.inj e).symm⟩, fun e => by rw [e.2]⟩
  · next h => exact ⟨(fun e => nomatch e), fun e => absurd e.1 h⟩

theorem assign_eq_none {w : RegWidth} {v : Nat} : assign w v = none ↔ fits w v = false := by
  simp [assign]

@[simp] theorem assign_unbounded (v : Nat) : assign .unbounded v = some v := rfl

@[simp] theorem seed_unbounded (s : Nat) : seed .unbounded s = some ⟨s, s ^^^ Config.cMicro⟩ := rfl

/-- The state register a churn leaves, over unbounded naturals (41_prng.md R113 steps 1 and 2). -/
theorem reinject_unbounded (state micro : Nat) :
    reinject .unbounded state micro = some (if state = 1 then (micro * 3 + 1) ^^^ Config.cReinj else state) := by
  unfold reinject; split <;> rfl

theorem churn_unbounded_isSome (p : Prng) : ∃ r, churn .unbounded p = some r := by
  simp [churn, reinject_unbounded]

@[simp] theorem nextBytes_zero (w : RegWidth) (p : Prng) : nextBytes w p 0 = some (p, Cells.nil) := rfl

theorem nextBytes_succ (w : RegWidth) (p : Prng) (n : Nat) :
    nextBytes w p (n + 1) = (churn w p).bind fun c => (nextBytes w c.1 n).bind fun r =>
      some (r.1, Cells.cons (low8 c.2) r.2) := rfl

@[simp] theorem packBytes_zero (w : RegWidth) (p : Prng) (acc : Nat) : packBytes w p acc 0 = some (p, acc) := rfl

theorem packBytes_succ (w : RegWidth) (p : Prng) (acc m : Nat) :
    packBytes w p acc (m + 1) = (churn w p).bind fun c =>
      packBytes w c.1 (acc * 256 + (low8 c.2).toNat) m := rfl

theorem nextBytes_unbounded_isSome (p : Prng) (n : Nat) : ∃ r, nextBytes .unbounded p n = some r := by
  induction n generalizing p with
  | zero => exact ⟨_, rfl⟩
  | succ n ih =>
    obtain ⟨c, hc⟩ := churn_unbounded_isSome p
    obtain ⟨r, hr⟩ := ih c.1
    exact ⟨_, by rw [nextBytes_succ, hc, Option.bind_some, hr, Option.bind_some]⟩

theorem packBytes_unbounded_isSome (p : Prng) (acc m : Nat) : ∃ r, packBytes .unbounded p acc m = some r := by
  induction m generalizing p acc with
  | zero => exact ⟨_, rfl⟩
  | succ m ih =>
    obtain ⟨c, hc⟩ := churn_unbounded_isSome p
    obtain ⟨r, hr⟩ := ih c.1 (acc * 256 + (low8 c.2).toNat)
    exact ⟨r, by rw [packBytes_succ, hc, Option.bind_some, hr]⟩

theorem nextInt_unbounded_isSome (p : Prng) (bits : Nat) : ∃ r, nextInt .unbounded p bits = some r := by
  obtain ⟨r, hr⟩ := packBytes_unbounded_isSome p 0 (byteCount bits)
  exact ⟨(r.1, r.2 % 2 ^ bits), by simp [nextInt, hr]⟩

theorem nextBlocks_unbounded_isSome (p : Prng) (m : Nat) : ∃ r, nextBlocks .unbounded p m = some r := by
  induction m generalizing p with
  | zero => exact ⟨_, rfl⟩
  | succ m ih =>
    obtain ⟨b, hb⟩ := nextBytes_unbounded_isSome p 16
    obtain ⟨r, hr⟩ := ih b.1
    exact ⟨(r.1, Cells.cons b.2 r.2), by simp [nextBlocks, hb, hr]⟩

/-- The key schedule is total (42_key_schedule.md R134). -/
theorem expandKey_unbounded_isSome (key : List Byte) : ∃ rk, expandKey .unbounded key = some rk := by
  obtain ⟨r, hr⟩ := nextBlocks_unbounded_isSome ⟨beNat key, beNat key ^^^ Config.cMicro⟩ 11
  exact ⟨r.2, by simp [expandKey, hr]⟩

theorem shuffle_unbounded_isSome (i : Nat) (h : i < 256) (p : Prng) (t : SBox) :
    ∃ r, shuffle .unbounded i h p t = some r := by
  induction i generalizing p t with
  | zero => exact ⟨_, rfl⟩
  | succ i ih =>
    obtain ⟨v, hv⟩ := nextInt_unbounded_isSome p Config.drawBits
    simp only [shuffle, hv, Option.bind_eq_bind, Option.bind_some]
    exact ih _ _ _

/-- The S-box generator is total (60_exceptions.md R175). -/
theorem deriveSbox_unbounded_isSome (k : Block) (r : Nat) : ∃ t, deriveSbox .unbounded k r = some t := by
  obtain ⟨x, hx⟩ := shuffle_unbounded_isSome 255 (by decide)
    ⟨sboxSeed k r, sboxSeed k r ^^^ Config.cMicro⟩ SBox.identity
  exact ⟨x.2, by simp [deriveSbox, hx]⟩

theorem foldlM_isSome {β γ : Type} {f : β → γ → Option β} (h : ∀ b c, ∃ b', f b c = some b') (cs : List γ) (b : β) :
    ∃ b', cs.foldlM f b = some b' := by
  induction cs generalizing b with
  | nil => exact ⟨b, rfl⟩
  | cons c cs ih =>
    obtain ⟨b', hb⟩ := h b c
    simp only [List.foldlM_cons, hb, Option.bind_eq_bind, Option.bind_some]
    exact ih b'

/-- The forward pipeline is total (44_round_pipeline.md R150). -/
theorem encryptBlock_unbounded_isSome (rk : RoundKeys) (blk : Block) :
    ∃ c, encryptBlock .unbounded rk blk = some c := by
  refine foldlM_isSome (fun b r => ?_) _ _
  obtain ⟨t, ht⟩ := deriveSbox_unbounded_isSome (rk.read r) r.val
  exact ⟨_, by simp only [encryptRound, roundSbox, ht, Option.bind_eq_bind, Option.bind_some]; rfl⟩

/-- The inverse pipeline is total (44_round_pipeline.md R150). -/
theorem decryptBlock_unbounded_isSome (rk : RoundKeys) (blk : Block) :
    ∃ c, decryptBlock .unbounded rk blk = some c := by
  obtain ⟨b, hb⟩ := foldlM_isSome (f := decryptRound .unbounded rk) (fun b r => by
    obtain ⟨t, ht⟩ := deriveSbox_unbounded_isSome (rk.read r) r.val
    exact ⟨_, by simp only [decryptRound, roundSbox, ht, Option.bind_eq_bind, Option.bind_some]; rfl⟩)
    rounds.reverse blk
  exact ⟨addRoundKey (rk.read 0) b, by simp [decryptBlock, hb]⟩

end Sys2Proof.Machine
end

