-- ==== Sys2Proof/Laws/Safety.lean ====
section
/-! SUPPORT. Small facts about the terms claims are made in: unbounded registers always fit, streams unfold by one
churn, and the shuffle written on functions is injective. -/

namespace Sys2Proof.Safety

open Sys2Proof.Machine

theorem belowWidth_unbounded (v : Nat) : belowWidth .unbounded v := trivial

theorem belowWidth_finite {w v : Nat} {hw : 0 < w} : belowWidth (.finite w hw) v ↔ v < 2 ^ w := Iff.rfl

theorem seedFits_unbounded (s : Nat) : seedFits .unbounded s := ⟨trivial, trivial⟩

theorem churnFits_unbounded (p : Prng) : churnFits .unbounded p := ⟨trivial, fun _ => trivial, trivial⟩

theorem streamFits_unbounded (p : Prng) (m : Nat) : streamFits .unbounded p m := fun _ _ => churnFits_unbounded _

theorem streamFits_zero (w : RegWidth) (p : Prng) : streamFits w p 0 := fun _ h => absurd h (Nat.not_lt_zero _)

theorem sboxFits_unbounded (k : Block) (r : Nat) : sboxFits .unbounded k r :=
  ⟨seedFits_unbounded _, streamFits_unbounded _ _⟩

theorem roundsFit_unbounded (rk : RoundKeys) : roundsFit .unbounded rk := fun _ _ => sboxFits_unbounded _ _

theorem scheduleFits_unbounded (key : List Byte) : scheduleFits .unbounded key :=
  ⟨seedFits_unbounded _, streamFits_unbounded _ _⟩

/-- The first churn, then the rest: the stream of the context one churn later. -/
theorem streamRef_succ' (p : Prng) (k : Nat) : streamRef p (k + 1) = streamRef (churnRef p) k := by
  induction k with
  | zero => rfl
  | succ k ih => rw [streamRef, ih, streamRef]

theorem streamRef_add (p : Prng) (a b : Nat) : streamRef p (a + b) = streamRef (streamRef p a) b := by
  induction b with
  | zero => rfl
  | succ b ih => rw [← Nat.add_assoc, streamRef, ih, streamRef]

/-- Exchanging two entries keeps a table injective. -/
theorem swapRef_injective {t : Nat → Nat} (h : Function.Injective t) (i j : Nat) :
    Function.Injective (swapRef t i j) := by
  have hs : swapRef t i j = t ∘ Equiv.swap i j := by
    funext x
    simp only [swapRef, Function.comp_apply, Equiv.swap_apply_def]
    split <;> [rfl; split <;> rfl]
  rw [hs]
  exact h.comp (Equiv.swap i j).injective

theorem shuffleRef_injective (p : Prng) (d : Nat) : Function.Injective (shuffleRef p d) := by
  induction d with
  | zero => exact Function.injective_id
  | succ d ih => exact swapRef_injective ih _ _

theorem sboxRef_injective (k : Block) (r : Nat) : Function.Injective (sboxRef k r) :=
  shuffleRef_injective _ _

theorem sboxesRef_injective (rk : RoundKeys) (r : Nat) : Function.Injective (sboxesRef rk r) := by
  unfold sboxesRef
  split
  · exact sboxRef_injective _ _
  · exact Function.injective_id

end Sys2Proof.Safety
end

