-- ==== Sys2Proof/Laws/Step.lean ====
section
/-! SUPPORT. What one command and one step can do, said once. -/

namespace Sys2Proof.Machine

/-- What a command answers to its payload, from the architectural state alone (00_scope.md R17). -/
def answerOf : (i : Instr) → Cells Byte i.payloadLen → Arch → Answer
  | .pseed n => answerPseed n
  | .pnextint bits => answerPnextint bits
  | .pnextbytes length => answerPnextbytes length
  | .keyload n => answerKeyload n
  | .encrypt n => answerEncrypt n
  | .decrypt n => answerDecrypt n
  | .rdrk i => answerRdrk i
  | .sboxgen r => answerSboxgen r
  | .isboxgen r => answerIsboxgen r

/-- Every command is one transaction over its payload (30_encoding.md R72). -/
theorem exec_eq_transact (i : Instr) (s : State) : exec i s = transact i.payloadLen (answerOf i) s := by
  cases i <;> rfl

/-- A command whose payload is there answers a next state. -/
theorem exec_append (i : Instr) (s : State) (c : Cells Byte i.payloadLen) {rest : List Byte}
    (h : s.din = c.cells ++ rest) :
    exec i s = .next { s with
      arch := (answerOf i c s.arch).1, din := rest, resp := s.resp ++ [(answerOf i c s.arch).2] } := by
  rw [exec_eq_transact, transact_append _ _ _ h]

/-- Everything a step can do: idle, run the decoded command, or answer an illegal word (30_encoding.md R82). -/
theorem step_cases (s : State) :
    (s.cmd = [] ∧ step s = .next s) ∨
    (∃ w rest i, s.cmd = w :: rest ∧ decode w = .ok i ∧ step s = exec i { s with cmd := rest }) ∨
    (∃ w rest e, s.cmd = w :: rest ∧ decode w = .error e ∧ step s = answerIllegal { s with cmd := rest }) := by
  cases hc : s.cmd with
  | nil => exact .inl ⟨rfl, by simp [step, hc, idle]⟩
  | cons w rest =>
    cases hd : decode w with
    | ok i => exact .inr (.inl ⟨w, rest, i, rfl, hd, by unfold step; rw [fetch_cons hc]; simp only [hd]⟩)
    | error e => exact .inr (.inr ⟨w, rest, e, rfl, hd, by unfold step; rw [fetch_cons hc]; simp only [hd]⟩)

end Sys2Proof.Machine
end

