-- ==== Sys2Proof/Tests/Slice0.lean ====
section
/-! SUPPORT. Tests of the model: ill-formed terms refused, words written out bit by bit, one small step per command with
the values of spec/95_test_vectors.md and the worked examples of the rules, and a named witness for the hypotheses of each
statement. -/

namespace Sys2Proof.Tests

open Sys2Proof.Machine Sys2Proof.Safety

/-- The next state of an outcome, if it is one. -/
def nextOf (o : Host.Outcome State Fault Refusal) : Option State :=
  match o with
  | .next s => some s
  | .fault _ | .refused _ => none

/-- The last response of an outcome. -/
def lastOf (o : Host.Outcome State Fault Refusal) : Option Response :=
  (nextOf o).bind fun s => s.resp.getLast?

/-- A CORE with nothing on its ports but a payload. -/
def sys (a : Arch) (din : List Byte) : State := ⟨a, [], din, []⟩

/-- Unbounded registers, U seeded with `s`, no key. -/
def seededArch (s : Nat) : Arch := (Arch.reset .unbounded).setUser ⟨s, s ^^^ 0xCAFEBABE⟩

/-- Round key 0 and round key 1 of vector V30. -/
def rk0 : Block := ⟨[0x5f, 0xec, 0xf6, 0xc0, 0xe0, 0xf0, 0xf8, 0xe2, 0x71, 0xfa, 0xfd, 0xd5, 0x4a, 0x25, 0x33, 0x52], rfl⟩
def rk1 : Block := ⟨[0x29, 0x26, 0x13, 0xbc, 0x5e, 0x2f, 0x55, 0x22, 0x91, 0x64, 0xb2, 0x7c, 0x3e, 0x38, 0x1c, 0x0e], rfl⟩

/-- The key b'0123456789abcdef'. -/
def key16 : List Byte :=
  [0x30, 0x31, 0x32, 0x33, 0x34, 0x35, 0x36, 0x37, 0x38, 0x39, 0x61, 0x62, 0x63, 0x64, 0x65, 0x66]

/-- The plaintext b'Hello World 123!'. -/
def hello : Block :=
  ⟨[0x48, 0x65, 0x6c, 0x6c, 0x6f, 0x20, 0x57, 0x6f, 0x72, 0x6c, 0x64, 0x20, 0x31, 0x32, 0x33, 0x21], rfl⟩

/-- A cipher context whose round keys are all round key 1 of V30. -/
def keyCtx : KeyCtx := ⟨16, key16, Cells.ofFn fun _ => rk1⟩

/-- Unbounded registers, U unseeded, the key context above. -/
def keyedArch : Arch := (Arch.reset .unbounded).setCipher keyCtx

/-- Registers of one bit: every seed overflows. -/
def narrow : RegWidth := .finite 1 (by decide)

/-! ## Well-formedness and decoding -/

theorem test_ill_formed_refused :
    ¬ (Instr.pseed 16777216).WellFormed ∧ ¬ (Instr.pnextint 16777216).WellFormed ∧
    ¬ (Instr.pnextbytes 16777216).WellFormed ∧ ¬ (Instr.keyload 16777216).WellFormed ∧
    ¬ (Instr.encrypt 16777216).WellFormed ∧ ¬ (Instr.decrypt 16777216).WellFormed ∧
    ¬ (Instr.rdrk 16777216).WellFormed ∧ ¬ (Instr.sboxgen 16777216).WellFormed ∧
    ¬ (Instr.isboxgen 16777216).WellFormed ∧ (Instr.pseed 16777215).WellFormed := by decide

/-! Words of spec/30_encoding.md R70, R74, OPC then ARG, bit by bit. -/
theorem test_decode_pseed : decode 0b00010000_000000000000000000000001#32 = .ok (.pseed 1) := rfl
theorem test_decode_pnextint : decode 0b00010001_000000000000000000100000#32 = .ok (.pnextint 32) := rfl
theorem test_decode_pnextbytes : decode 0b00010010_111111111111111111111111#32 = .ok (.pnextbytes 16777215) := rfl
theorem test_decode_keyload : decode 0b00100000_000000000000000000010000#32 = .ok (.keyload 16) := rfl
theorem test_decode_encrypt : decode 0b00100001_000000000000000000010000#32 = .ok (.encrypt 16) := rfl
theorem test_decode_decrypt : decode 0b00100010_000000000000000000010000#32 = .ok (.decrypt 16) := rfl
theorem test_decode_rdrk : decode 0b00100011_000000000000000000001010#32 = .ok (.rdrk 10) := rfl
theorem test_decode_sboxgen : decode 0b00100100_000000000000000000000001#32 = .ok (.sboxgen 1) := rfl
theorem test_decode_isboxgen : decode 0b00100101_100000000000000000000001#32 = .ok (.isboxgen 8388609) := rfl
theorem test_decode_rejects_by_name :
    decode 0#32 = .error (.illegalOpc 0x00) ∧ decode 0xFFFFFFFF#32 = .error (.illegalOpc 0xFF) ∧
    decode 0x13000000#32 = .error (.illegalOpc 0x13) ∧ decode 0x26000010#32 = .error (.illegalOpc 0x26) :=
  ⟨rfl, rfl, rfl, rfl⟩
theorem test_decodeTableWord : decodeTableWord 32 0x20000010 = some (.keyload 16) := rfl
theorem test_withFetchWord_runs :
    lastOf (step (State.reset.withFetchWord 32 0x2000000F)) = some ⟨.invalidKeySize, []⟩ := by decide

/-! ## Worked examples and vectors, one step each -/

/-- V10 and V11: the step functions. -/
theorem test_step_functions :
    nextCollatz 27 = 82 ∧ microStep 0xCAFEBABE = 0x657F5D5F ∧ microStep 0x657F5D5F = 0x1FB7CD2DC ∧
    extendedCollatz 7 3 1 10 = 2 ∧ extendedCollatz 8 3 1 3 = 1 ∧ extendedCollatz 5 5 1 0 = 26 := by decide

/-- V22: the first churn of seed 2 reinjects from the micro register of before the churn. -/
theorem test_churn_reinjects :
    churn .unbounded ⟨2, 0xCAFEBABC⟩ = some (⟨0x272c8664d, 0x657f5d5e⟩, 0x217b73b13) := by decide

/-- V29: a reinjection that lands on 1 stays 1 for that churn. -/
theorem test_churn_reinjects_to_one :
    churn .unbounded ⟨2, 0x06117228⟩ = some (⟨1, 0x308b914⟩, 0x308b915) := by decide

/-- R112: PSEED 2, h'3039'. -/
theorem test_pseed_loads_both_registers :
    nextOf (exec (.pseed 2) (sys (Arch.reset .unbounded) [0x30, 0x39])) =
      some ⟨(Arch.reset .unbounded).setUser ⟨0x3039, 0xCAFE8A87⟩, [], [], [⟨.ok, []⟩]⟩ := by decide

/-- V60: with 32-bit registers PSEED 5, h'0100000000' overflows at seed time. -/
theorem test_pseed_overflows :
    (nextOf (exec (.pseed 5) (sys (Arch.reset (.finite 32 (by decide))) [1, 0, 0, 0, 0]))).map (fun s => (s.arch.fault, s.resp)) =
      some (true, [⟨.overflow, []⟩]) := by decide

/-- V27: the first bytes of seed 42. -/
theorem test_pnextbytes_seed_42 :
    lastOf (exec (.pnextbytes 4) (sys (seededArch 42) [])) = some ⟨.ok, [0x5f, 0xe5, 0x1a, 0x8d]⟩ := by decide

/-- V60: with 32-bit registers the first draw after seed 1 overflows and unseeds U. -/
theorem test_pnextbytes_overflows :
    (nextOf (exec (.pnextbytes 1)
      (sys ((Arch.reset (.finite 32 (by decide))).setUser ⟨1, 0xCAFEBABF⟩) []))).map
        (fun s => (s.arch.fault, s.arch.uSeeded, s.resp)) = some (true, false, [⟨.overflow, []⟩]) := by decide

/-- V60: PNEXTINT 12 after seed 42 masks the first byte drawn. -/
theorem test_pnextint_masks_first_byte :
    lastOf (exec (.pnextint 12) (sys (seededArch 42) [])) = some ⟨.ok, [0x0f, 0xe5]⟩ := by decide

/-- V60: PNEXTINT 0 is refused and U does not move. -/
theorem test_pnextint_zero_bits :
    nextOf (exec (.pnextint 0) (sys (seededArch 42) [])) =
      some ⟨seededArch 42, [], [], [⟨.illegalOperand, []⟩]⟩ := by decide

/-- V30: round keys 0, 1 and 10 of b'0123456789abcdef'. -/
theorem test_keyload_round_keys :
    ((expandKey .unbounded key16).map fun rk => ((rk.read 0, rk.read 1), (rk.read 10).cells)) =
      some ((rk0, rk1), [0x3c, 0x9e, 0xcf, 0x12, 0x89, 0xf3, 0x97, 0x5f, 0xfa, 0x7d, 0x46, 0xa3, 0x75, 0x27, 0xb5, 0xb9]) := by
  decide +kernel

/-- V60: a failed KEYLOAD takes its payload and leaves the key that was loaded. -/
theorem test_keyload_bad_length_keeps_key :
    nextOf (exec (.keyload 8) (sys keyedArch (List.replicate 9 7))) =
      some ⟨keyedArch, [], [7], [⟨.invalidKeySize, []⟩]⟩ := by decide

/-- R133: RDRK reads a round key. -/
theorem test_rdrk_reads :
    lastOf (exec (.rdrk 10) (sys keyedArch [])) = some ⟨.ok, rk1.cells⟩ := by decide

/-- V60: RDRK 11 is refused. -/
theorem test_rdrk_out_of_range :
    lastOf (exec (.rdrk 11) (sys keyedArch [])) = some ⟨.illegalOperand, []⟩ := by decide

/-- V40: the seed and the first entries of S_1 of b'0123456789abcdef'. -/
theorem test_sboxgen_first_and_last :
    sboxSeed rk1 1 = 0x292613bc5e2f55229164b27c0f794528 ∧
    ((lastOf (exec (.sboxgen 1) (sys keyedArch []))).map fun r => (r.dout.take 4, r.dout.drop 252)) =
      some ([0x1c, 0x41, 0x82, 0x79], [0xab, 0x67, 0x20, 0x4e]) := by decide +kernel

/-- V60: SBOXGEN 0 is refused, not the identity table. -/
theorem test_sboxgen_round_zero :
    lastOf (exec (.sboxgen 0) (sys keyedArch [])) = some ⟨.illegalOperand, []⟩ := by decide

/-- R143: the inverse of a table with one swap sends the swapped values back. -/
theorem test_invert_sbox :
    (invertSbox (SBox.identity.swap 3 200)).at 200 = 3 ∧ (invertSbox (SBox.identity.swap 3 200)).at 3 = 200 := by
  decide +kernel

/-- V60: ISBOXGEN 0 is refused. -/
theorem test_isboxgen_round_zero :
    lastOf (exec (.isboxgen 0) (sys keyedArch [])) = some ⟨.illegalOperand, []⟩ := by decide

/-- V52: the two row shifts. -/
theorem test_row_shifts :
    (shiftRows (Cells.ofFn fun i => BitVec.ofNat 8 i.val)).cells =
      [0x00, 0x05, 0x0a, 0x0f, 0x04, 0x09, 0x0e, 0x03, 0x08, 0x0d, 0x02, 0x07, 0x0c, 0x01, 0x06, 0x0b] ∧
    (invShiftRows (Cells.ofFn fun i => BitVec.ofNat 8 i.val)).cells =
      [0x00, 0x0d, 0x0a, 0x07, 0x04, 0x01, 0x0e, 0x0b, 0x08, 0x05, 0x02, 0x0f, 0x0c, 0x09, 0x06, 0x03] := by decide

/-- V50: the first AddRoundKey and the first round of the encryption trace. -/
theorem test_encrypt_first_round :
    (encryptRound .unbounded keyCtx.rk (addRoundKey rk0 hello) 1).map Cells.cells =
      some [0x0c, 0x8f, 0xc1, 0x82, 0x4c, 0xdf, 0x49, 0x0d, 0xe8, 0x41, 0x5f, 0xe9, 0x5c, 0x8f, 0x14, 0xe6] := by
  decide +kernel

/-- V51: the block before and after the first InvShiftRows of the decryption trace. -/
theorem test_decrypt_inv_shift_rows :
    (invShiftRows ⟨[0xc7, 0x50, 0xc9, 0x1f, 0xcf, 0x56, 0x98, 0x64, 0x20, 0xd8, 0x3f, 0xd3, 0x39, 0xba, 0x78, 0x2c], rfl⟩).cells =
      [0xc7, 0xba, 0x3f, 0x64, 0xcf, 0x50, 0x78, 0xd3, 0x20, 0x56, 0xc9, 0x2c, 0x39, 0xd8, 0x98, 0x1f] := by decide

/-- V60, R182: NO_KEY comes before INVALID_BLOCK_SIZE, and the payload is taken either way. -/
theorem test_encrypt_check_order :
    lastOf (exec (.encrypt 15) (sys (Arch.reset .unbounded) (List.replicate 15 0))) = some ⟨.noKey, []⟩ ∧
    lastOf (exec (.encrypt 17) (sys keyedArch (List.replicate 17 0))) = some ⟨.invalidBlockSize, []⟩ := by decide

/-- V60: DECRYPT 0. -/
theorem test_decrypt_no_payload :
    lastOf (exec (.decrypt 0) (sys keyedArch [])) = some ⟨.invalidBlockSize, []⟩ := by decide

/-- R83: the example's two ends, and the other forms of the operand, the payload and a response. -/
theorem test_render :
    renderCommand .decimal .ascii (.keyload 16) [0x30, 0x31, 0x66] = "KEYLOAD 16, b'01f'" ∧
    renderCommand .hexadecimal .hexadecimal (.pseed 0x1F) [0x00, 0xff, 0x10] = "PSEED 0x1f, h'00ff10'" ∧
    renderResponse ⟨.ok, [0x0a]⟩ = "-> OK h'0a'" ∧ renderResponse ⟨.noKey, []⟩ = "-> NO_KEY" := by decide

/-! ## Witnesses: states and operands that meet the hypotheses of each statement -/

theorem witness_DecodeOfEncode : (Instr.isboxgen (2 ^ 24 - 1)).WellFormed := by decide

theorem witness_EncodeOfDecode : ∃ w i, decode w = .ok i := ⟨0x20000010#32, _, rfl⟩

theorem witness_RowSelectedByMatchAndMask :
    0x10000000#32 &&& 0xFF000000#32 = 0x10000000#32 ∧ 0x11000000#32 &&& 0xFF000000#32 = 0x11000000#32 ∧
    0x12FFFFFF#32 &&& 0xFF000000#32 = 0x12000000#32 ∧ 0x20000010#32 &&& 0xFF000000#32 = 0x20000000#32 ∧
    0x21000010#32 &&& 0xFF000000#32 = 0x21000000#32 ∧ 0x22000010#32 &&& 0xFF000000#32 = 0x22000000#32 ∧
    0x2300000A#32 &&& 0xFF000000#32 = 0x23000000#32 ∧ 0x24000001#32 &&& 0xFF000000#32 = 0x24000000#32 ∧
    0x25FFFFFF#32 &&& 0xFF000000#32 = 0x25000000#32 := by decide

/-- A CORE just reset with one word on CMD. -/
def withWord (w : Word) (din : List Byte) : State := { State.reset with cmd := [w], din := din }

theorem witness_IllegalWordsAnswered :
    (withWord 0x7F000010 []).cmd = 0x7F000010 :: [] ∧ opcNat 0x7F000010 ∉ opcodes ∧
    (withWord 0x7F000010 []).arch.fault = false := by decide

theorem witness_StepRunsDecodedCommand :
    ∃ (s : State) (w : Word) (rest : List Word) (i : Instr), s.cmd = w :: rest ∧ decode w = .ok i :=
  ⟨withWord 0x2300000A [], 0x2300000A#32, [], _, rfl, rfl⟩

theorem witness_IdleHoldsState : State.reset.cmd = [] := rfl

theorem witness_EveryWordTakesItsPayload :
    (withWord 0x20000002 [1, 2, 3]).cmd = 0x20000002 :: [] ∧
    payloadBytes 0x20000002 ≤ (withWord 0x20000002 [1, 2, 3]).din.length := by decide

theorem witness_OnlyShortPayloadIsRefused :
    (withWord 0x20000002 [1]).cmd = 0x20000002 :: [] ∧
    (withWord 0x20000002 [1]).din.length < payloadBytes 0x20000002 := by decide

/-- OneResponsePerCommand, FirstFailedCheckGivesStatus, FiniteWidthNeverWraps: a step that answers OK. -/
theorem witness_step_answers_ok :
    ∃ s t w rest r, s.cmd = w :: rest ∧ step s = .next t ∧ t.resp = s.resp ++ [r] ∧ r.status = .ok ∧
      r.status ≠ .overflow :=
  ⟨withWord 0x10000001 [0x2a], _, _, _, _, rfl, rfl, rfl, rfl, by decide⟩

/-- ErrorsArePrecise, and an error's clause of OneResponsePerCommand and FirstFailedCheckGivesStatus. -/
theorem witness_step_answers_error :
    ∃ s t w rest r, s.cmd = w :: rest ∧ step s = .next t ∧ t.resp = s.resp ++ [r] ∧
      r.status.code.toNat ∈ [1, 2, 3, 4, 5, 6] ∧ r.status ≠ .ok :=
  ⟨withWord 0x2000000F (List.replicate 15 0), _, _, _, _, rfl, rfl, rfl, by decide, by decide⟩

theorem witness_UnboundedNeverOverflows :
    ∃ s t r, s.arch.regWidth = .unbounded ∧ Inv s ∧ step s = .next t ∧ t.resp = s.resp ++ [r] :=
  ⟨withWord 0x11000020 [], _, _, rfl, ⟨nofun, nofun, nofun⟩, rfl, rfl⟩

/-- A faulted CORE with a word on CMD. -/
def faultedWith (w : Word) (din : List Byte) : State :=
  { State.resetOf narrow with arch := (Arch.reset narrow).setFault, cmd := [w], din := din }

theorem witness_FaultedAnswersEveryWord :
    (faultedWith 0x21000010 (List.replicate 16 0)).arch.fault = true ∧
    (faultedWith 0x21000010 (List.replicate 16 0)).cmd = 0x21000010 :: [] ∧
    payloadBytes 0x21000010 ≤ (faultedWith 0x21000010 (List.replicate 16 0)).din.length := by decide

theorem witness_OverflowEffects :
    ∃ s t w rest r, s.cmd = w :: rest ∧ step s = .next t ∧ t.resp = s.resp ++ [r] ∧ r.status = .overflow :=
  ⟨{ State.resetOf narrow with cmd := [0x10000000] }, _, _, _, _, rfl, rfl, rfl, rfl⟩

theorem witness_FiniteWidthNeverWraps :
    ∃ s t r, s.arch.regWidth = .finite 40 (by decide) ∧ step s = .next t ∧ t.resp = s.resp ++ [r] ∧
      r.status ≠ .overflow :=
  ⟨{ State.resetOf (.finite 40 (by decide)) with cmd := [0x10000001], din := [1] }, _, _, rfl, rfl, rfl, by decide⟩

/-- CommandFrame and CipherAndStreamAreIndependent, for a command of each group. -/
theorem witness_exec_next :
    (∃ s t, exec (.pnextbytes 1) s = .next t) ∧ (∃ s t, exec (.keyload 16) s = .next t) ∧
    (∃ s t, exec (.rdrk 0) s = .next t) :=
  ⟨⟨sys (seededArch 42) [], _, rfl⟩, ⟨sys (Arch.reset narrow) (List.replicate 16 0), _, rfl⟩,
    ⟨sys keyedArch [], _, rfl⟩⟩

/-- A KEYLOAD that responds OK. -/
theorem keyload_ok : ∃ t k, exec (.keyload 16) (sys (Arch.reset .unbounded) key16) = .next t ∧
    t.arch.cipher = .loaded k := by
  obtain ⟨rk, h⟩ := expandKey_unbounded_isSome key16
  refine ⟨_, ⟨16, key16, rk⟩, exec_append (.keyload 16) _ ⟨key16, rfl⟩ (List.append_nil key16).symm, ?_⟩
  have h' : answerOf (.keyload 16) ⟨key16, rfl⟩ (Arch.reset .unbounded) =
      respond ((Arch.reset .unbounded).setCipher ⟨16, key16, rk⟩) [] := by
    show answerKeyload 16 ⟨key16, rfl⟩ (Arch.reset .unbounded) = _
    unfold answerKeyload
    rw [unlessFaulted_of_ok (Arch.reset_fault _), if_pos (by decide), Arch.reset_regWidth, h]
    rfl
  show (answerOf (.keyload 16) ⟨key16, rfl⟩ (Arch.reset .unbounded)).1.cipher = _
  rw [h', respond_fst, Arch.setCipher_cipher]

/-- CommandFrame's clauses: FAULT, the cipher context, and U do change somewhere. -/
theorem witness_CommandFrame_changes :
    (∃ s t, exec (.pseed 0) s = .next t ∧ t.arch.fault ≠ s.arch.fault) ∧
    (∃ s t, exec (.keyload 16) s = .next t ∧ t.arch.cipher ≠ s.arch.cipher) ∧
    (∃ s t, exec (.pnextbytes 1) s = .next t ∧ t.arch.user ≠ s.arch.user) := by
  refine ⟨⟨sys (Arch.reset narrow) [], _, rfl, by decide⟩, ?_, ⟨sys (seededArch 42) [], _, rfl, by decide⟩⟩
  obtain ⟨t, k, h, hk⟩ := keyload_ok
  exact ⟨_, t, h, by rw [hk]; nofun⟩

theorem witness_ReadOnlyCommandsRepeat :
    ∃ i s t r, isReadOnlyCommand i = true ∧ exec i s = .next t ∧ t.resp = s.resp ++ [r] ∧ r.status ≠ .overflow :=
  ⟨.rdrk 10, sys keyedArch [], _, _, rfl, rfl, rfl, by decide⟩

theorem witness_RefusedUntilBooted :
    ∃ (w : RegWidth) (s : State) (payload rest : List Byte) (n : Nat),
      s.arch = Arch.reset w ∧ s.din = payload ++ rest ∧ payload.length = n :=
  ⟨narrow, sys (Arch.reset narrow) [1, 2], [1], [2], 1, rfl, rfl, rfl⟩

theorem witness_StepKeepsInvariant : ∃ s t, Inv s ∧ step s = .next t ∧ t.arch.user ≠ s.arch.user :=
  ⟨withWord 0x10000001 [0x2a], _, ⟨nofun, nofun, nofun⟩, rfl, nofun⟩

/-- ReinjectionNeverZero: micro at the one value that reinjects 1, at 0, and a churn whose first step reaches 1. -/
theorem witness_ReinjectionNeverZero :
    reinject .unbounded 1 101806632 = some 1 ∧ reinject .unbounded 1 0 = some 0x12345679 ∧
    nextCollatz 2 = 1 ∧ (churn .unbounded ⟨2, 101806632⟩).isSome = true := by decide

/-- RegisterGrowth: draws exist at the two lengths from the two sizes of registers, the narrowest registers exist, and
the bounds of one churn that reinjects are those of the formulas. -/
theorem witness_RegisterGrowth :
    (∃ q bytes, nextBytes .unbounded ⟨2 ^ 256 - 1, 2 ^ 256 - 1⟩ 176 = some (q, bytes)) ∧
    (∃ q bytes, nextBytes .unbounded ⟨2 ^ 128 - 1, 2 ^ 128 - 1⟩ 1020 = some (q, bytes)) ∧ 0 < 1 ∧
    microBound ⟨2, 7⟩ 1 = 42 ∧ stateBound ⟨2, 7⟩ 1 = 4 * (126 + 1 + 0x12345678) := by
  refine ⟨?_, ?_, by decide, by decide, by decide⟩
  · obtain ⟨r, h⟩ := nextBytes_unbounded_isSome ⟨2 ^ 256 - 1, 2 ^ 256 - 1⟩ 176
    exact ⟨r.1, r.2, h⟩
  · obtain ⟨r, h⟩ := nextBytes_unbounded_isSome ⟨2 ^ 128 - 1, 2 ^ 128 - 1⟩ 1020
    exact ⟨r.1, r.2, h⟩

theorem witness_OnlyPseedSeeds :
    ∃ i s t, exec i s = .next t ∧ s.arch.uSeeded = false ∧ t.arch.uSeeded = true :=
  ⟨.pseed 1, sys (Arch.reset .unbounded) [7], _, rfl, rfl, rfl⟩

/-- ByteDrawsConcatenate: widths that are no multiple of 8, at both ends of the residue's range. -/
theorem witness_ByteDrawsConcatenate : 1 % 8 ≠ 0 ∧ 7 % 8 ≠ 0 ∧ 12 % 8 ≠ 0 := by decide

theorem witness_GrowthBounds : 1 ≤ 27 := by decide

/-- A narrow register does not hold 2. -/
theorem not_below_narrow : ¬ belowWidth narrow 2 := by
  show ¬ (2 < 2 ^ 1)
  decide

theorem witness_ChurnByRule : (∃ w p, churnFits w p) ∧ (∃ w p, ¬ churnFits w p) :=
  ⟨⟨.unbounded, ⟨2, 2⟩, churnFits_unbounded _⟩, ⟨narrow, ⟨4, 0⟩, fun h => not_below_narrow h.1⟩⟩

theorem witness_StateNeverInfluencesMicro :
    ∃ (p q p' q' : Prng) (x y : Cells Byte 1), p.micro = q.micro ∧ p.state ≠ q.state ∧
      nextBytes .unbounded p 1 = some (p', x) ∧ nextBytes .unbounded q 1 = some (q', y) :=
  ⟨⟨2, 7⟩, ⟨9, 7⟩, _, _, _, _, rfl, by decide, rfl, rfl⟩

/-- A draw of any length from unbounded registers. -/
theorem draw_exists (p : Prng) (n : Nat) : ∃ q x, nextBytes .unbounded p n = some (q, x) := by
  obtain ⟨r, h⟩ := nextBytes_unbounded_isSome p n
  exact ⟨r.1, r.2, h⟩

theorem witness_DegenerateSeeds :
    (∃ p x, nextBytes .unbounded ⟨0xCAFEBABE, 0⟩ 7 = some (p, x)) ∧
    (∃ p x, nextBytes .unbounded ⟨0, 0xCAFEBABE⟩ 7 = some (p, x)) ∧
    (∃ p x, nextBytes .unbounded ⟨0xCAFEBABF, 1⟩ 8 = some (p, x)) :=
  ⟨draw_exists _ _, draw_exists _ _, draw_exists _ _⟩

/-- One churn overflows narrow registers. -/
theorem not_streamFits_narrow (m : Nat) : ¬ streamFits narrow ⟨4, 0⟩ (m + 1) :=
  fun h => not_below_narrow (h 0 (Nat.succ_pos m)).1

theorem witness_BytesAreTheChurnStream :
    streamFits .unbounded ⟨2, 7⟩ 5 ∧ streamFits narrow ⟨4, 0⟩ 0 ∧ ¬ streamFits narrow ⟨4, 0⟩ 1 :=
  ⟨streamFits_unbounded _ _, streamFits_zero _ _, not_streamFits_narrow 0⟩

theorem witness_IntegerDrawIsByteDraw : 1 ≤ 1 := le_refl 1

/-- Narrow registers, U seeded with values that fit. -/
def narrowSeeded : Arch := (Arch.reset narrow).setUser ⟨4, 0⟩

theorem witness_PseedResult :
    ∃ (n : Nat) (s f : State) (payload rest : List Byte),
      s.din = payload ++ rest ∧ f.din = payload ++ rest ∧ payload.length = n ∧
      f.arch.fault = true ∧ s.arch.fault = false ∧ seedFits s.arch.regWidth (beSum payload) :=
  ⟨1, sys (Arch.reset .unbounded) [1, 2], sys (Arch.reset .unbounded).setFault [1, 2], [1], [2],
    rfl, rfl, rfl, rfl, rfl, seedFits_unbounded _⟩

theorem witness_PseedResult_overflow :
    ∃ (s : State) (payload rest : List Byte),
      s.din = payload ++ rest ∧ s.arch.fault = false ∧ ¬ seedFits s.arch.regWidth (beSum payload) :=
  ⟨sys (Arch.reset narrow) [2], [2], [], rfl, rfl, fun h => not_below_narrow h.1⟩

theorem witness_PnextbytesResult :
    (∃ s : State, s.arch.fault = true) ∧
    (∃ s : State, s.arch.fault = false ∧ s.arch.user = .unseeded) ∧
    (∃ (s : State) (p : Prng), s.arch.fault = false ∧ s.arch.user = .seeded p ∧ streamFits s.arch.regWidth p 3) ∧
    (∃ (s : State) (p : Prng), s.arch.fault = false ∧ s.arch.user = .seeded p ∧ ¬ streamFits s.arch.regWidth p 3) :=
  ⟨⟨faultedWith 0 [], rfl⟩, ⟨State.reset, rfl, rfl⟩,
    ⟨sys (seededArch 42) [], _, rfl, rfl, streamFits_unbounded _ _⟩,
    ⟨sys narrowSeeded [], _, rfl, rfl, not_streamFits_narrow 2⟩⟩

theorem witness_PnextintResult :
    (∃ (s : State) (p : Prng) (bits : Nat), s.arch.fault = false ∧ s.arch.user = .seeded p ∧ bits = 0) ∧
    (∃ (s : State) (p : Prng) (bits : Nat), s.arch.fault = false ∧ s.arch.user = .seeded p ∧ 1 ≤ bits ∧
      streamFits s.arch.regWidth p ((bits + 7) / 8)) ∧
    (∃ (s : State) (p : Prng) (bits : Nat), s.arch.fault = false ∧ s.arch.user = .seeded p ∧ 1 ≤ bits ∧
      ¬ streamFits s.arch.regWidth p ((bits + 7) / 8)) :=
  ⟨⟨sys (seededArch 42) [], _, 0, rfl, rfl, rfl⟩,
    ⟨sys (seededArch 42) [], _, 1, rfl, rfl, le_refl 1, streamFits_unbounded _ _⟩,
    ⟨sys narrowSeeded [], _, 9, rfl, rfl, by decide, not_streamFits_narrow 1⟩⟩

/-- Two sequences with a PSEED of the same value written with and without a leading zero, and a cipher command
interleaved in one of them. -/
theorem witness_SameSeedSameStream :
    ∃ (a b a' b' : Arch) (n m : Nat) (x y : List Byte) (cs ds : List (Instr × List Byte))
      (rs ts : List (Instr × Response)),
      a.regWidth = .unbounded ∧ b.regWidth = .unbounded ∧ a.fault = false ∧ b.fault = false ∧ a.user ≠ b.user ∧
      beSum x = beSum y ∧
      (cs.filter fun c => isPrngCommand c.1) = (ds.filter fun c => isPrngCommand c.1) ∧ cs ≠ ds ∧
      answers a ((.pseed n, x) :: cs) = some (a', rs) ∧ answers b ((.pseed m, y) :: ds) = some (b', ts) :=
  ⟨keyedArch, seededArch 5, _, _, 1, 2, [42], [0, 42], [(.rdrk 3, []), (.pnextbytes 2, [])], [(.pnextbytes 2, [])], _, _,
    rfl, rfl, rfl, rfl, by decide, by decide, rfl, by decide, rfl, rfl⟩

theorem witness_KeyloadResult :
    (∃ (s : State) (key rest : List Byte), s.din = key ++ rest ∧ key.length = 17 ∧ s.arch.fault = false ∧
      17 ∉ [16, 24, 32]) ∧
    (∃ (s : State) (key rest : List Byte), s.din = key ++ rest ∧ key.length = 32 ∧ s.arch.fault = false ∧
      32 ∈ [16, 24, 32] ∧ scheduleFits s.arch.regWidth key) ∧
    (∃ (s : State) (key rest : List Byte), s.din = key ++ rest ∧ key.length = 16 ∧ s.arch.fault = false ∧
      16 ∈ [16, 24, 32] ∧ ¬ scheduleFits s.arch.regWidth key) ∧
    (∃ (s : State) (key rest : List Byte), s.din = key ++ rest ∧ key.length = 16 ∧ s.arch.fault = true) :=
  ⟨⟨sys (Arch.reset .unbounded) (List.replicate 17 0), List.replicate 17 0, [], rfl, rfl, rfl, by decide⟩,
    ⟨sys (Arch.reset .unbounded) (List.replicate 32 0), List.replicate 32 0, [], rfl, rfl, rfl, by decide,
      scheduleFits_unbounded _⟩,
    ⟨sys (Arch.reset narrow) key16, key16, [], rfl, rfl, rfl, by decide,
      fun h => (by decide : ¬ beSum key16 < 2 ^ 1) h.1.1⟩,
    ⟨faultedWith 0 key16, key16, [], rfl, rfl, rfl⟩⟩

theorem witness_RoundKeysOnlyThroughValue : beSum [0, 7] = beSum [7] := by decide

/-- RdrkResult, and the checks of SboxgenResult, IsboxgenResult, EncryptResult and DecryptResult, at the ends of each
operand's range. -/
theorem witness_key_checks :
    (∃ s : State, s.arch.fault = true) ∧
    (∃ s : State, s.arch.fault = false ∧ s.arch.cipher = .noKey) ∧
    (∃ (s : State) (k : KeyCtx), s.arch.fault = false ∧ s.arch.cipher = .loaded k ∧
      10 < 11 ∧ 0 ≤ 10 ∧ 10 ≤ 10 ∧ (0 < 1 ∨ 10 < 0) ∧ (11 < 1 ∨ 10 < 11) ∧ 15 ≠ 16 ∧ 17 ≠ 16) :=
  ⟨⟨faultedWith 0 [], rfl⟩, ⟨State.reset, rfl, rfl⟩, ⟨sys keyedArch [], keyCtx, rfl, rfl, by decide⟩⟩

theorem witness_SufficientWidths :
    ∃ (i j : Instr) (s t u v : State) (r q : Response),
      s.arch.regWidth = .finite 943 (by decide) ∧ exec i s = .next t ∧ t.resp = s.resp ++ [r] ∧
      (∃ n, i = .keyload n) ∧ 402 ≤ 943 ∧
      u.arch.regWidth = .finite 943 (by decide) ∧ exec j u = .next v ∧ v.resp = u.resp ++ [q] ∧
      isReadOnlyCommand j = true :=
  ⟨.keyload 3, .rdrk 2, sys (Arch.reset (.finite 943 (by decide))) [1, 2, 3], _,
    sys ((Arch.reset (.finite 943 (by decide))).setCipher keyCtx) [], _, _, _,
    rfl, rfl, rfl, ⟨3, rfl⟩, by decide, rfl, rfl, rfl, rfl⟩

theorem witness_SboxSeedRule : 10 ≤ 10 ∧ sboxSeed rk1 10 / 2 ^ 33 = beSum rk1.cells / 2 ^ 33 := by decide

/-- The S-box of round 1 under the key context above does not fit narrow registers. -/
theorem not_sboxFits_narrow (r : Nat) (h : sboxSeedRef rk1 r = sboxSeedRef rk1 1) : ¬ sboxFits narrow rk1 r := by
  intro hf
  have h1 : sboxSeedRef rk1 r < 2 ^ 1 := hf.1.1
  rw [h] at h1
  exact absurd h1 (by decide)

theorem witness_SboxIsFisherYates : sboxFits .unbounded rk1 1 ∧ ¬ sboxFits narrow rk1 1 :=
  ⟨sboxFits_unbounded _ _, not_sboxFits_narrow 1 rfl⟩

theorem witness_SboxIsPermutation : ∃ t, deriveSbox .unbounded rk1 10 = some t :=
  deriveSbox_unbounded_isSome _ _

theorem witness_InverseSboxUndoes : Function.Bijective SBox.identity.at := by
  have h : SBox.identity.at = id := funext SBox.at_identity
  rw [h]
  exact Function.bijective_id

theorem read_keyCtx (i : Fin 11) : keyCtx.rk.read i = rk1 := Cells.read_ofFn _ _

/-- SboxgenResult and IsboxgenResult: rounds 1 and 10 where the registers hold, and a round where they do not. -/
theorem witness_SboxgenResult :
    (∃ (s : State) (k : KeyCtx), s.arch.fault = false ∧ s.arch.cipher = .loaded k ∧
      sboxFits s.arch.regWidth (k.rk.read 1) 1 ∧ sboxFits s.arch.regWidth (k.rk.read 10) 10) ∧
    (∃ (s : State) (k : KeyCtx), s.arch.fault = false ∧ s.arch.cipher = .loaded k ∧
      ¬ sboxFits s.arch.regWidth (k.rk.read 1) 1) :=
  ⟨⟨sys keyedArch [], keyCtx, rfl, rfl, sboxFits_unbounded _ _, sboxFits_unbounded _ _⟩,
    ⟨sys ((Arch.reset narrow).setCipher keyCtx) [], keyCtx, rfl, rfl, by
      rw [read_keyCtx]; exact not_sboxFits_narrow 1 rfl⟩⟩

/-- EncryptResult, DecryptResult and CipherRoundTrip: a key, registers that hold, and registers that do not. -/
theorem witness_EncryptResult :
    (∃ (s : State) (k : KeyCtx) (x : List Byte), s.arch.fault = false ∧ s.arch.cipher = .loaded k ∧
      s.din = x ++ [] ∧ x.length = 16 ∧ roundsFit s.arch.regWidth k.rk) ∧
    (∃ (s : State) (k : KeyCtx) (x : List Byte), s.arch.fault = false ∧ s.arch.cipher = .loaded k ∧
      s.din = x ++ [] ∧ x.length = 16 ∧ ¬ roundsFit s.arch.regWidth k.rk) :=
  ⟨⟨sys keyedArch key16, keyCtx, key16, rfl, rfl, rfl, rfl, roundsFit_unbounded _⟩,
    ⟨sys ((Arch.reset narrow).setCipher keyCtx) key16, keyCtx, key16, rfl, rfl, rfl, rfl, fun h => by
      have h1 := h 1 (by decide)
      rw [read_keyCtx] at h1
      exact not_sboxFits_narrow 1 rfl h1⟩⟩

/-- DecryptResult: functions that undo the S-boxes exist. -/
theorem witness_DecryptResult :
    ∃ isbox : Nat → Nat → Nat,
      ∀ r, 1 ≤ r → r ≤ 10 → ∀ x < 256, isbox r (sboxesRef keyCtx.rk r x) = x :=
  ⟨fun r => Function.invFun (sboxesRef keyCtx.rk r), fun r _ _ x _ =>
    Function.leftInverse_invFun (sboxesRef_injective keyCtx.rk r) x⟩

theorem witness_ByteLocality :
    ∃ (x x' y y' : Block) (j : Fin 16),
      encryptBlock .unbounded keyCtx.rk x = some y ∧ encryptBlock .unbounded keyCtx.rk x' = some y' ∧
      x.read j ≠ x'.read j ∧ ∀ i, i ≠ j → x.read i = x'.read i := by
  obtain ⟨y, hy⟩ := encryptBlock_unbounded_isSome keyCtx.rk hello
  obtain ⟨y', hy'⟩ := encryptBlock_unbounded_isSome keyCtx.rk (hello.write 15 0)
  exact ⟨hello, hello.write 15 0, y, y', 15, hy, hy', by decide,
    fun i h => (Cells.read_write_other hello 0 (Ne.symm h)).symm⟩

theorem witness_BigEndianConversions : 255 < 256 ^ 1 ∧ 0 < 256 ^ 0 := by decide

theorem witness_PseudoCommandsAssemble :
    2 ^ 24 - 1 < 2 ^ 24 ∧ beSum [0, 1, 0] = 256 ∧ (Pseudo.payload (.pseedi 256)).length < 2 ^ 24 ∧
    (Pseudo.payload (.pseedi 0)).length < 2 ^ 24 := by decide

end Sys2Proof.Tests
end

section
/-! Big-endian conversions (00_scope.md R13): both directions by induction on the leading byte. -/

namespace Sys2Proof

open Sys2Proof.Safety

theorem beNat_foldl (acc : Nat) (bs : List Byte) :
    bs.foldl (fun acc b => acc * 256 + b.toNat) acc = acc * 256 ^ bs.length + beNat bs := by
  induction bs using List.reverseRecOn with
  | nil => simp
  | append_singleton bs b ih =>
    rw [List.foldl_append, ih, beNat_concat, List.length_append, List.length_singleton, pow_succ]
    simp only [List.foldl_cons, List.foldl_nil]
    ring

theorem beNat_cons (b : Byte) (bs : List Byte) :
    beNat (b :: bs) = b.toNat * 256 ^ bs.length + beNat bs := by
  rw [← beNat_foldl]
  simp [beNat]

theorem beSum_cons (b : Byte) (bs : List Byte) :
    beSum (b :: bs) = b.toNat * 256 ^ bs.length + beSum bs := by
  simp [beSum, List.range_succ_eq_map, Function.comp_def, Nat.sub_sub, Nat.add_comm 1]

/-- The machine's conversion is the sum of R13. -/
theorem beNat_eq_beSum (bs : List Byte) : beNat bs = beSum bs := by
  induction bs with
  | nil => rfl
  | cons b bs ih => rw [beNat_cons, beSum_cons, ih]

@[simp] theorem bytesBE_zero (v : Nat) : bytesBE v 0 = [] := rfl

theorem bytesBE_succ (v n : Nat) : bytesBE v (n + 1) = low8 (v / 256 ^ n) :: bytesBE v n := by
  simp [bytesBE, List.range_succ_eq_map, Function.comp_def, Nat.sub_sub, Nat.add_comm]

/-- The `n` bytes of `v` hold its residue modulo `256^n`. -/
theorem beNat_bytesBE (v n : Nat) : beNat (bytesBE v n) = v % 256 ^ n := by
  induction n with
  | zero => simp [Nat.mod_one]
  | succ n ih =>
    rw [bytesBE_succ, beNat_cons, low8_toNat, length_bytesBE, ih, Nat.mod_pow_succ]
    ring

/-- Bytes are read back from their value, whatever stands above them. -/
theorem bytesBE_add_beNat (m : Nat) (bs : List Byte) :
    bytesBE (m * 256 ^ bs.length + beNat bs) bs.length = bs := by
  induction bs generalizing m with
  | nil => rfl
  | cons b bs ih =>
    have hlow : beNat bs < 256 ^ bs.length := by
      rw [← ih 0, beNat_bytesBE, length_bytesBE]
      exact Nat.mod_lt _ (by positivity)
    have hval : m * 256 ^ (bs.length + 1) + beNat (b :: bs)
        = (m * 256 + b.toNat) * 256 ^ bs.length + beNat bs := by
      rw [beNat_cons]; ring
    have hquot : ((m * 256 + b.toNat) * 256 ^ bs.length + beNat bs) / 256 ^ bs.length
        = m * 256 + b.toNat := by
      rw [Nat.mul_comm _ (256 ^ _), Nat.mul_add_div (by positivity), Nat.div_eq_of_lt hlow, Nat.add_zero]
    have hbyte : low8 (m * 256 + b.toNat) = b := by
      apply BitVec.eq_of_toNat_eq
      rw [low8_toNat]
      have := b.isLt
      omega
    rw [List.length_cons, hval, bytesBE_succ, hquot, hbyte, ih]

/-- Settles O52: the sum by the leading byte, and the two conversions by induction on the length. -/
theorem bigEndianConversions : Obligations.BigEndianConversions := by
  refine ⟨beNat_eq_beSum, beNat_nil, fun v n hv => ⟨length_bytesBE v n, ?_⟩, fun bs => ?_, fun bs => ?_⟩
  · rw [← beNat_eq_beSum, beNat_bytesBE, Nat.mod_eq_of_lt hv]
  · simpa [beNat_eq_beSum] using bytesBE_add_beNat 0 bs
  · simp [beSum_cons]

end Sys2Proof
end

section
/-! SUPPORT. What a command can answer, said once for all nine: one equation per command, in which every branch on
overflow is the same operation `orOverflow`, and one inversion lemma derived from them. -/

namespace Sys2Proof.Machine

open Sys2Proof.Safety

/-- A computation on registers inside a command: where it overflows the command answers `ov`
(60_exceptions.md R178), otherwise it goes on with the result. -/
def orOverflow {β : Type} (x : Option β) (ov : Answer) (run : β → Answer) : Answer :=
  match x with
  | none => ov
  | some b => run b

section Equations

variable (a : Arch)

theorem answerOf_pseed (n : Nat) (c : Cells Byte (Instr.pseed n).payloadLen) :
    answerOf (.pseed n) c a = unlessFaulted a (orOverflow (seed a.regWidth (beNat c.cells)) (overflowUser a) fun p =>
      respond (a.setUser p) []) := by
  simp only [answerOf, answerPseed]
  cases seed a.regWidth (beNat c.cells) <;> rfl

theorem answerOf_pnextint (bits : Nat) (c : Cells Byte (Instr.pnextint bits).payloadLen) :
    answerOf (.pnextint bits) c a = unlessFaulted a (withUser a fun p =>
      if bits = 0 then raise .illegalOperand a
      else orOverflow (nextInt a.regWidth p bits) (overflowUser a) fun r =>
        respond (a.setUser r.1) (bytesBE r.2 (byteCount bits))) := by
  simp only [answerOf, answerPnextint]
  congr! with p
  cases nextInt a.regWidth p bits <;> rfl

theorem answerOf_pnextbytes (length : Nat) (c : Cells Byte (Instr.pnextbytes length).payloadLen) :
    answerOf (.pnextbytes length) c a = unlessFaulted a (withUser a fun p =>
      orOverflow (nextBytes a.regWidth p length) (overflowUser a) fun r => respond (a.setUser r.1) r.2.cells) := by
  simp only [answerOf, answerPnextbytes]
  congr! with p
  cases nextBytes a.regWidth p length <;> rfl

theorem answerOf_keyload (n : Nat) (c : Cells Byte (Instr.keyload n).payloadLen) :
    answerOf (.keyload n) c a = unlessFaulted a (if legalKeyLen n then
      orOverflow (expandKey a.regWidth c.cells) (overflow a) fun rk =>
        respond (a.setCipher ⟨BitVec.ofNat 6 n, c.cells, rk⟩) []
      else raise .invalidKeySize a) := by
  simp only [answerOf, answerKeyload]
  cases expandKey a.regWidth c.cells <;> rfl

theorem answerOf_encrypt (n : Nat) (c : Cells Byte (Instr.encrypt n).payloadLen) :
    answerOf (.encrypt n) c a = unlessFaulted a (withKey a fun rk =>
      if h : n = 16 then
        orOverflow (encryptBlock a.regWidth rk (c.cast h)) (overflow a) fun blk => respond a blk.cells
      else raise .invalidBlockSize a) := by
  simp only [answerOf, answerEncrypt]
  congr! with rk h
  cases encryptBlock a.regWidth rk (c.cast h) <;> rfl

theorem answerOf_decrypt (n : Nat) (c : Cells Byte (Instr.decrypt n).payloadLen) :
    answerOf (.decrypt n) c a = unlessFaulted a (withKey a fun rk =>
      if h : n = 16 then
        orOverflow (decryptBlock a.regWidth rk (c.cast h)) (overflow a) fun blk => respond a blk.cells
      else raise .invalidBlockSize a) := by
  simp only [answerOf, answerDecrypt]
  congr! with rk h
  cases decryptBlock a.regWidth rk (c.cast h) <;> rfl

theorem answerOf_rdrk (i : Nat) (c : Cells Byte (Instr.rdrk i).payloadLen) :
    answerOf (.rdrk i) c a = unlessFaulted a (withKey a fun rk =>
      if h : i < 11 then respond a (rk.read ⟨i, h⟩).cells else raise .illegalOperand a) := rfl

theorem answerOf_sboxgen (r : Nat) (c : Cells Byte (Instr.sboxgen r).payloadLen) :
    answerOf (.sboxgen r) c a = unlessFaulted a (withKey a fun rk =>
      if h : 1 ≤ r ∧ r < 11 then
        orOverflow (roundSbox a.regWidth rk ⟨r, h.2⟩) (overflow a) fun t => respond a t.cells
      else raise .illegalOperand a) := by
  simp only [answerOf, answerSboxgen]
  congr! with rk h
  cases roundSbox a.regWidth rk ⟨r, h.2⟩ <;> rfl

theorem answerOf_isboxgen (r : Nat) (c : Cells Byte (Instr.isboxgen r).payloadLen) :
    answerOf (.isboxgen r) c a = unlessFaulted a (withKey a fun rk =>
      if h : 1 ≤ r ∧ r < 11 then
        orOverflow (roundSbox a.regWidth rk ⟨r, h.2⟩) (overflow a) fun t => respond a (invertSbox t).cells
      else raise .illegalOperand a) := by
  simp only [answerOf, answerIsboxgen]
  congr! with rk h
  cases roundSbox a.regWidth rk ⟨r, h.2⟩ <;> rfl

end Equations

/-- Everything a command can answer in the architectural state `a`. -/
inductive CommandAnswer (i : Instr) (a : Arch) : Answer → Prop
  /-- A precise error (60_exceptions.md R179, R180). -/
  | error (e : Status) (precise : e.precise = true) : CommandAnswer i a (raise e a)
  /-- OVERFLOW in a scratch context (60_exceptions.md R178). -/
  | overflow (prng : isPrngCommand i = false) (finite : a.regWidth ≠ .unbounded) :
      CommandAnswer i a (overflow a)
  /-- OVERFLOW in the user context (60_exceptions.md R178). -/
  | overflowUser (prng : isPrngCommand i = true) (finite : a.regWidth ≠ .unbounded) :
      CommandAnswer i a (overflowUser a)
  /-- A PRNG command completes: U is loaded or advanced (10_state.md R22). -/
  | advance (p : Prng) (dout : List Byte) (prng : isPrngCommand i = true) (length : dout.length = i.resultLen) :
      CommandAnswer i a (respond (a.setUser p) dout)
  /-- A KEYLOAD completes (42_key_schedule.md R132). -/
  | load (n : Nat) (k : KeyCtx) (keyload : i = .keyload n) : CommandAnswer i a (respond (a.setCipher k) [])
  /-- A read-only command completes (20_memory.md R60). -/
  | read (dout : List Byte) (readOnly : isReadOnlyCommand i = true) (length : dout.length = i.resultLen) :
      CommandAnswer i a (respond a dout)

namespace CommandAnswer

variable {i : Instr} {a : Arch} {x : Answer}

theorem unlessFaulted (h : CommandAnswer i a x) : CommandAnswer i a (unlessFaulted a x) := by
  obtain ⟨-, hx⟩ | ⟨-, hx⟩ := unlessFaulted_cases a x <;> rw [hx]
  · exact .error .faulted rfl
  · exact h

theorem withUser {f : Prng → Answer} (h : ∀ p, CommandAnswer i a (f p)) : CommandAnswer i a (withUser a f) := by
  obtain ⟨-, hx⟩ | ⟨p, -, hx⟩ := withUser_cases a f <;> rw [hx]
  · exact .error .notSeeded rfl
  · exact h p

theorem withKey {f : RoundKeys → Answer} (h : ∀ rk, CommandAnswer i a (f rk)) : CommandAnswer i a (withKey a f) := by
  obtain ⟨-, hx⟩ | ⟨k, -, hx⟩ := withKey_cases a f <;> rw [hx]
  · exact .error .noKey rfl
  · exact h k.rk

theorem orOverflow {β : Type} {y : Option β} {ov : Answer} {run : β → Answer}
    (total : a.regWidth = .unbounded → ∃ b, y = some b)
    (hov : a.regWidth ≠ .unbounded → CommandAnswer i a ov) (hrun : ∀ b, CommandAnswer i a (run b)) :
    CommandAnswer i a (orOverflow y ov run) := by
  cases y with
  | none => exact hov fun hw => nomatch (total hw).choose_spec
  | some b => exact hrun b

/-- A check of the operand, its error raised where it fails. -/
theorem dite {p : Prop} [Decidable p] {f : p → Answer} {e : Status} (precise : e.precise = true)
    (h : ∀ hp, CommandAnswer i a (f hp)) : CommandAnswer i a (if hp : p then f hp else raise e a) := by
  split
  · exact h _
  · exact .error e precise

/-- No command writes REG_WIDTH (00_scope.md R8). -/
theorem regWidth_eq (h : CommandAnswer i a x) : x.1.regWidth = a.regWidth := by
  cases h <;> rfl

/-- FAULT changes on OVERFLOW alone (10_state.md R29). -/
theorem fault_frame (h : CommandAnswer i a x) (hne : x.1.fault ≠ a.fault) : x.2.status = .overflow := by
  cases h with
  | overflow | overflowUser => rfl
  | error | advance | load | read => exact absurd rfl hne

/-- The cipher context changes on a KEYLOAD that responds OK alone (10_state.md R26 to R28). -/
theorem cipher_frame (h : CommandAnswer i a x) (hne : x.1.cipher ≠ a.cipher) :
    x.2.status = .ok ∧ ∃ n, i = .keyload n := by
  cases h with
  | load n k hi => exact ⟨rfl, n, hi⟩
  | error | overflow | overflowUser | advance | read => exact absurd rfl hne

/-- U changes on a PRNG command that responds OK or overflows alone (10_state.md R22, R23). -/
theorem user_frame (h : CommandAnswer i a x) (hne : x.1.user ≠ a.user) :
    isPrngCommand i = true ∧ (x.2.status = .ok ∨ x.2.status = .overflow) := by
  cases h with
  | overflowUser hp => exact ⟨hp, .inr rfl⟩
  | advance p dout hp => exact ⟨hp, .inl rfl⟩
  | error | overflow | load | read => exact absurd rfl hne

end CommandAnswer

/-- Every command answers one of these. -/
theorem commandAnswer_answerOf (i : Instr) (c : Cells Byte i.payloadLen) (a : Arch) :
    CommandAnswer i a (answerOf i c a) := by
  cases i with
  | pseed n =>
    rw [answerOf_pseed]
    exact .unlessFaulted (.orOverflow (fun hw => hw ▸ ⟨_, seed_unbounded _⟩) (.overflowUser rfl)
      fun p => .advance p [] rfl rfl)
  | pnextint bits =>
    rw [answerOf_pnextint]
    refine .unlessFaulted (.withUser fun p => ?_)
    split
    · exact .error .illegalOperand rfl
    · exact .orOverflow (fun hw => hw ▸ nextInt_unbounded_isSome p bits) (.overflowUser rfl)
        fun r => .advance r.1 _ rfl (length_bytesBE _ _)
  | pnextbytes length =>
    rw [answerOf_pnextbytes]
    exact .unlessFaulted (.withUser fun p =>
      .orOverflow (fun hw => hw ▸ nextBytes_unbounded_isSome p length) (.overflowUser rfl)
        fun r => .advance r.1 _ rfl r.2.size)
  | keyload n =>
    rw [answerOf_keyload]
    exact .unlessFaulted (.dite rfl fun _ =>
      .orOverflow (fun hw => hw ▸ expandKey_unbounded_isSome c.cells) (.overflow rfl) fun rk => .load n _ rfl)
  | encrypt n =>
    rw [answerOf_encrypt]
    exact .unlessFaulted (.withKey fun rk => .dite rfl fun h =>
      .orOverflow (fun hw => hw ▸ encryptBlock_unbounded_isSome rk (c.cast h)) (.overflow rfl)
        fun blk => .read _ rfl blk.size)
  | decrypt n =>
    rw [answerOf_decrypt]
    exact .unlessFaulted (.withKey fun rk => .dite rfl fun h =>
      .orOverflow (fun hw => hw ▸ decryptBlock_unbounded_isSome rk (c.cast h)) (.overflow rfl)
        fun blk => .read _ rfl blk.size)
  | rdrk i =>
    rw [answerOf_rdrk]
    exact .unlessFaulted (.withKey fun rk => .dite rfl fun h => .read _ rfl (rk.read ⟨i, h⟩).size)
  | sboxgen r =>
    rw [answerOf_sboxgen]
    exact .unlessFaulted (.withKey fun rk => .dite rfl fun h =>
      .orOverflow (fun hw => hw ▸ deriveSbox_unbounded_isSome (rk.read ⟨r, h.2⟩) r) (.overflow rfl)
        fun t => .read _ rfl t.size)
  | isboxgen r =>
    rw [answerOf_isboxgen]
    exact .unlessFaulted (.withKey fun rk => .dite rfl fun h =>
      .orOverflow (fun hw => hw ▸ deriveSbox_unbounded_isSome (rk.read ⟨r, h.2⟩) r) (.overflow rfl)
        fun t => .read _ rfl (invertSbox t).size)

/-- Everything a command can do to the machine when it answers a next state. -/
theorem exec_next {i : Instr} {s t : State} (h : exec i s = .next t) :
    ∃ (c : Cells Byte i.payloadLen) (rest : List Byte), s.din = c.cells ++ rest ∧
      t = { s with arch := (answerOf i c s.arch).1, din := rest, resp := s.resp ++ [(answerOf i c s.arch).2] } :=
  transact_next (exec_eq_transact i s ▸ h)

/-- An accepted word that is a command runs it (30_encoding.md R82). -/
theorem step_of_decode_ok {s : State} {w : Word} {rest : List Word} {i : Instr} (hc : s.cmd = w :: rest)
    (hd : decode w = .ok i) : step s = exec i { s with cmd := rest } := by
  simp [step, fetch_cons hc, hd]

/-- An accepted word that is no command is answered as such (30_encoding.md R76). -/
theorem step_of_decode_error {s : State} {w : Word} {rest : List Word} {e : DecodeReject} (hc : s.cmd = w :: rest)
    (hd : decode w = .error e) : step s = answerIllegal { s with cmd := rest } := by
  simp [step, fetch_cons hc, hd]

/-- Settles O17: the frame of what the command can answer, carried through its transaction. -/
theorem commandFrame : Obligations.CommandFrame := by
  intro i s t h
  obtain ⟨c, rest, hdin, rfl⟩ := exec_next h
  have hans := commandAnswer_answerOf i c s.arch
  exact ⟨rfl, hans.regWidth_eq, c.cells, _, hdin, c.size, rfl, hans.fault_frame, hans.cipher_frame, hans.user_frame⟩

end Sys2Proof.Machine
end

section
/-! A finite REG_WIDTH never wraps a value (00_scope.md R8): every computation on registers, where it does not
overflow, gives the result it gives with unbounded registers; so does every command, and so does every step. -/

namespace Sys2Proof.Machine

open Sys2Proof.Safety

/-- Where `x` gives a result, `y` gives the same one. -/
def Refines {β : Type} (x y : Option β) : Prop := ∀ b, x = some b → y = some b

namespace Refines

variable {β γ : Type}

theorem refl (x : Option β) : Refines x x := fun _ h => h

theorem bind {x y : Option β} {f g : β → Option γ} (h : Refines x y) (hf : ∀ b, Refines (f b) (g b)) :
    Refines (x >>= f) (y >>= g) := by
  intro c hc
  obtain ⟨b, hb, hfb⟩ := Option.bind_eq_some_iff.mp hc
  exact Option.bind_eq_some_iff.mpr ⟨b, h b hb, hf b c hfb⟩

theorem foldlM {f g : β → γ → Option β} (h : ∀ b c, Refines (f b c) (g b c)) (cs : List γ) (b : β) :
    Refines (cs.foldlM f b) (cs.foldlM g b) := by
  induction cs generalizing b with
  | nil => exact refl _
  | cons c cs ih => exact bind (h b c) ih

end Refines

section Registers

variable (w : RegWidth)

theorem assign_refines (v : Nat) : Refines (assign w v) (assign .unbounded v) := by
  intro u h
  rw [assign_unbounded, (assign_eq_some.mp h).2]

theorem seed_refines (s : Nat) : Refines (seed w s) (seed .unbounded s) :=
  (assign_refines w _).bind fun _ => (assign_refines w _).bind fun _ => .refl _

theorem reinject_refines (state micro : Nat) : Refines (reinject w state micro) (reinject .unbounded state micro) := by
  unfold reinject
  split
  · exact assign_refines w _
  · exact .refl _

theorem churn_refines (p : Prng) : Refines (churn w p) (churn .unbounded p) :=
  (assign_refines w _).bind fun _ => (reinject_refines w _ _).bind fun _ => (assign_refines w _).bind fun _ => .refl _

theorem nextBytes_refines (p : Prng) (n : Nat) : Refines (nextBytes w p n) (nextBytes .unbounded p n) := by
  induction n generalizing p with
  | zero => exact .refl _
  | succ n ih => exact (churn_refines w p).bind fun c => (ih c.1).bind fun _ => .refl _

theorem packBytes_refines (p : Prng) (acc m : Nat) :
    Refines (packBytes w p acc m) (packBytes .unbounded p acc m) := by
  induction m generalizing p acc with
  | zero => exact .refl _
  | succ m ih => exact (churn_refines w p).bind fun c => ih c.1 _

theorem nextInt_refines (p : Prng) (bits : Nat) : Refines (nextInt w p bits) (nextInt .unbounded p bits) :=
  (packBytes_refines w p 0 _).bind fun _ => .refl _

theorem nextBlocks_refines (p : Prng) (m : Nat) : Refines (nextBlocks w p m) (nextBlocks .unbounded p m) := by
  induction m generalizing p with
  | zero => exact .refl _
  | succ m ih => exact (nextBytes_refines w p 16).bind fun b => (ih b.1).bind fun _ => .refl _

theorem expandKey_refines (key : List Byte) : Refines (expandKey w key) (expandKey .unbounded key) :=
  (seed_refines w _).bind fun ksp => (nextBlocks_refines w ksp 11).bind fun _ => .refl _

theorem shuffle_refines (i : Nat) (h : i < 256) (p : Prng) (t : SBox) :
    Refines (shuffle w i h p t) (shuffle .unbounded i h p t) := by
  induction i generalizing p t with
  | zero => exact .refl _
  | succ i ih => exact (nextInt_refines w p _).bind fun d => ih _ d.1 _

theorem roundSbox_refines (rk : RoundKeys) (r : Fin 11) : Refines (roundSbox w rk r) (roundSbox .unbounded rk r) :=
  (seed_refines w _).bind fun sbp => (shuffle_refines w 255 _ sbp _).bind fun _ => .refl _

theorem encryptBlock_refines (rk : RoundKeys) (blk : Block) :
    Refines (encryptBlock w rk blk) (encryptBlock .unbounded rk blk) :=
  .foldlM (fun _ r => (roundSbox_refines w rk r).bind fun _ => .refl _) _ _

theorem decryptBlock_refines (rk : RoundKeys) (blk : Block) :
    Refines (decryptBlock w rk blk) (decryptBlock .unbounded rk blk) :=
  Refines.bind (.foldlM (fun _ r => (roundSbox_refines w rk r).bind fun _ => .refl _) _ _) fun _ => .refl _

end Registers

/-- The same architectural state with unbounded registers. -/
def Arch.widen (a : Arch) : Arch := { a with regWidth := .unbounded }

@[simp] theorem Arch.widen_regWidth (a : Arch) : a.widen.regWidth = .unbounded := rfl
@[simp] theorem Arch.widen_user (a : Arch) : a.widen.user = a.user := rfl
@[simp] theorem Arch.widen_cipher (a : Arch) : a.widen.cipher = a.cipher := rfl
@[simp] theorem Arch.widen_fault (a : Arch) : a.widen.fault = a.fault := rfl
@[simp] theorem widened_arch (s : State) : (widened s).arch = s.arch.widen := rfl

/-- `y` is the answer `x` of the machine with unbounded registers, unless `x` is OVERFLOW. -/
def WidensTo (x y : Answer) : Prop := x.2.status ≠ .overflow → y = (x.1.widen, x.2)

namespace WidensTo

variable {a : Arch} {x y : Answer}

theorem raise (e : Status) : WidensTo (raise e a) (raise e a.widen) := fun _ => rfl

theorem respond (dout : List Byte) : WidensTo (respond a dout) (respond a.widen dout) := fun _ => rfl

theorem unlessFaulted (h : WidensTo x y) : WidensTo (unlessFaulted a x) (unlessFaulted a.widen y) := by
  cases hf : a.fault
  · simpa [hf] using h
  · simpa [hf] using raise .faulted

theorem withUser {f g : Prng → Answer} (h : ∀ p, WidensTo (f p) (g p)) :
    WidensTo (withUser a f) (withUser a.widen g) := by
  cases hu : a.user with
  | unseeded => simpa [hu] using raise .notSeeded
  | seeded p => simpa [hu] using h p

theorem withKey {f g : RoundKeys → Answer} (h : ∀ rk, WidensTo (f rk) (g rk)) :
    WidensTo (withKey a f) (withKey a.widen g) := by
  cases hc : a.cipher with
  | noKey => simpa [hc] using raise .noKey
  | loaded k => simpa [hc] using h k.rk

theorem orOverflow {β : Type} {u v : Option β} {ov ov' : Answer} {f g : β → Answer} (hov : ov.2.status = .overflow)
    (huv : Refines u v) (h : ∀ b, WidensTo (f b) (g b)) : WidensTo (orOverflow u ov f) (orOverflow v ov' g) := by
  cases hu : u with
  | none => exact fun hne => absurd hov hne
  | some b => rw [huv b hu]; exact h b

theorem dite {p : Prop} [Decidable p] {f g : p → Answer} {e : Status} (h : ∀ hp, WidensTo (f hp) (g hp)) :
    WidensTo (if hp : p then f hp else Machine.raise e a) (if hp : p then g hp else Machine.raise e a.widen) := by
  split
  · exact h _
  · exact raise e

end WidensTo

/-- Every command that does not overflow answers what it answers with unbounded registers. -/
theorem answerOf_widensTo (i : Instr) (c : Cells Byte i.payloadLen) (a : Arch) :
    WidensTo (answerOf i c a) (answerOf i c a.widen) := by
  cases i with
  | pseed n =>
    rw [answerOf_pseed, answerOf_pseed]
    exact .unlessFaulted (.orOverflow rfl (seed_refines _ _) fun p => .respond (a := a.setUser p) [])
  | pnextint bits =>
    rw [answerOf_pnextint, answerOf_pnextint]
    refine .unlessFaulted (.withUser fun p => ?_)
    split
    · exact .raise .illegalOperand
    · exact .orOverflow rfl (nextInt_refines _ p bits) fun r => .respond (a := a.setUser r.1) _
  | pnextbytes length =>
    rw [answerOf_pnextbytes, answerOf_pnextbytes]
    exact .unlessFaulted (.withUser fun p =>
      .orOverflow rfl (nextBytes_refines _ p length) fun r => .respond (a := a.setUser r.1) _)
  | keyload n =>
    rw [answerOf_keyload, answerOf_keyload]
    exact .unlessFaulted (.dite fun _ =>
      .orOverflow rfl (expandKey_refines _ c.cells) fun rk => .respond (a := a.setCipher _) [])
  | encrypt n =>
    rw [answerOf_encrypt, answerOf_encrypt]
    exact .unlessFaulted (.withKey fun rk => .dite fun h =>
      .orOverflow rfl (encryptBlock_refines _ rk (c.cast h)) fun blk => .respond blk.cells)
  | decrypt n =>
    rw [answerOf_decrypt, answerOf_decrypt]
    exact .unlessFaulted (.withKey fun rk => .dite fun h =>
      .orOverflow rfl (decryptBlock_refines _ rk (c.cast h)) fun blk => .respond blk.cells)
  | rdrk i =>
    rw [answerOf_rdrk, answerOf_rdrk]
    exact .unlessFaulted (.withKey fun rk => .dite fun h => .respond (rk.read ⟨i, h⟩).cells)
  | sboxgen r =>
    rw [answerOf_sboxgen, answerOf_sboxgen]
    exact .unlessFaulted (.withKey fun rk => .dite fun h =>
      .orOverflow rfl (roundSbox_refines _ rk ⟨r, h.2⟩) fun t => .respond t.cells)
  | isboxgen r =>
    rw [answerOf_isboxgen, answerOf_isboxgen]
    exact .unlessFaulted (.withKey fun rk => .dite fun h =>
      .orOverflow rfl (roundSbox_refines _ rk ⟨r, h.2⟩) fun t => .respond (invertSbox t).cells)

/-- One transaction carries the comparison of answers over to the machine. -/
theorem transact_widened {n : Nat} {run : Cells Byte n → Arch → Answer} {s t : State} {r : Response}
    (hrun : ∀ c, WidensTo (run c s.arch) (run c s.arch.widen)) (h : transact n run s = .next t)
    (hresp : t.resp = s.resp ++ [r]) (hr : r.status ≠ .overflow) :
    transact n run (widened s) = .next (widened t) := by
  obtain ⟨c, rest, hdin, rfl⟩ := transact_next h
  have hans : (run c s.arch).2 = r := by simpa using hresp
  have hwide : run c s.arch.widen = ((run c s.arch).1.widen, (run c s.arch).2) := hrun c (hans ▸ hr)
  rw [transact_append run (widened s) c hdin, widened_arch, hwide]
  rfl

/-- Settles O16: a step is idle, which gives no response, or a transaction whose answer the unbounded machine gives
too. -/
theorem finiteWidthNeverWraps : Obligations.FiniteWidthNeverWraps := by
  intro s t r h hresp hr
  obtain ⟨-, hidle⟩ | ⟨w, rest, i, hc, hd, hstep⟩ | ⟨w, rest, e, hc, hd, hstep⟩ := step_cases s
  · rw [hidle] at h
    cases h
    simp at hresp
  · rw [hstep, exec_eq_transact] at h
    rw [step_of_decode_ok (s := widened s) hc hd, exec_eq_transact]
    exact transact_widened (s := { s with cmd := rest }) (fun c => answerOf_widensTo i c s.arch) h hresp hr
  · rw [hstep] at h
    rw [step_of_decode_error (s := widened s) hc hd]
    exact transact_widened (s := { s with cmd := rest }) (fun _ => .unlessFaulted (.raise .illegalCommand)) h hresp hr

end Sys2Proof.Machine
end

section
/-! What a draw leaves in the registers (41_prng.md R113): the micro register is a function of the micro register alone
(10_state.md R21), and every register that a seed or a draw leaves fits REG_WIDTH (60_exceptions.md R178). -/

namespace Sys2Proof.Machine

open Sys2Proof.Safety

/-- Where `x` gives a result, the result meets `Q`. -/
def Ensures {β : Type} (x : Option β) (Q : β → Prop) : Prop := ∀ b, x = some b → Q b

namespace Ensures

variable {β γ : Type}

theorem pure {b : β} {Q : β → Prop} (h : Q b) : Ensures (some b) Q := fun _ hb => Option.some.inj hb ▸ h

theorem bind {x : Option β} {f : β → Option γ} {R : β → Prop} {Q : γ → Prop} (h : Ensures x R)
    (hf : ∀ b, R b → Ensures (f b) Q) : Ensures (x >>= f) Q := by
  intro c hc
  obtain ⟨b, hb, hfb⟩ := Option.bind_eq_some_iff.mp hc
  exact hf b (h b hb) c hfb

/-- A computation whose result does not matter to what follows. -/
theorem bind_any {x : Option β} {f : β → Option γ} {Q : γ → Prop} (hf : ∀ b, Ensures (f b) Q) :
    Ensures (x >>= f) Q :=
  bind (R := fun _ => True) (fun _ _ => trivial) fun b _ => hf b

end Ensures

/-- The context `p` holds values that registers of width `w` can hold (10_state.md R22). -/
def Prng.Fits (w : RegWidth) (p : Prng) : Prop := belowWidth w p.state ∧ belowWidth w p.micro

theorem fits_iff_belowWidth (w : RegWidth) (v : Nat) : fits w v = true ↔ belowWidth w v := by
  cases w with
  | unbounded => exact iff_of_true rfl trivial
  | finite w hw => exact fits_finite

section Registers

variable (w : RegWidth)

theorem assign_ensures_eq (v : Nat) : Ensures (assign w v) (· = v) := fun _ h => (assign_eq_some.mp h).2

theorem assign_ensures_belowWidth (v : Nat) : Ensures (assign w v) (belowWidth w) := by
  intro u h
  obtain ⟨hfits, rfl⟩ := assign_eq_some.mp h
  exact (fits_iff_belowWidth w u).mp hfits

theorem reinject_ensures_belowWidth {state : Nat} (micro : Nat) (h : belowWidth w state) :
    Ensures (reinject w state micro) (belowWidth w) := by
  unfold reinject
  split
  · exact assign_ensures_belowWidth w _
  · exact .pure h

theorem churn_ensures_micro (p : Prng) : Ensures (churn w p) fun c => c.1.micro = microStep p.micro :=
  .bind_any fun _ => .bind_any fun _ => (assign_ensures_eq w _).bind fun _ hmicro => .pure hmicro

theorem nextBytes_ensures_micro (p : Prng) (n : Nat) :
    Ensures (nextBytes w p n) fun r => r.1.micro = microStep^[n] p.micro := by
  induction n generalizing p with
  | zero => exact .pure rfl
  | succ n ih =>
    refine (churn_ensures_micro w p).bind fun c hc => (ih c.1).bind fun r hr => .pure ?_
    rw [hr, hc, Function.iterate_succ_apply]

theorem seed_ensures_fits (s : Nat) : Ensures (seed w s) (Prng.Fits w) :=
  (assign_ensures_belowWidth w _).bind fun _ hstate =>
    (assign_ensures_belowWidth w _).bind fun _ hmicro => .pure ⟨hstate, hmicro⟩

theorem churn_ensures_fits (p : Prng) : Ensures (churn w p) fun c => c.1.Fits w :=
  (assign_ensures_belowWidth w _).bind fun _ hstepped =>
    (reinject_ensures_belowWidth w _ hstepped).bind fun _ hstate =>
      (assign_ensures_belowWidth w _).bind fun _ hmicro => .pure ⟨hstate, hmicro⟩

variable {w} {p : Prng}

theorem nextBytes_ensures_fits (hp : p.Fits w) (n : Nat) : Ensures (nextBytes w p n) fun r => r.1.Fits w := by
  induction n generalizing p with
  | zero => exact .pure hp
  | succ n ih => exact (churn_ensures_fits w p).bind fun c hc => (ih hc).bind fun r hr => .pure hr

theorem packBytes_ensures_fits (hp : p.Fits w) (acc m : Nat) :
    Ensures (packBytes w p acc m) fun r => r.1.Fits w := by
  induction m generalizing p acc with
  | zero => exact .pure hp
  | succ m ih => exact (churn_ensures_fits w p).bind fun c hc => ih hc _

theorem nextInt_ensures_fits (hp : p.Fits w) (bits : Nat) : Ensures (nextInt w p bits) fun r => r.1.Fits w :=
  (packBytes_ensures_fits hp 0 _).bind fun _ hr => .pure hr

end Registers

/-- Settles O27: `n` bytes leave `micro` at the `n`-th iterate of the micro step, at any width. -/
theorem stateNeverInfluencesMicro : Obligations.StateNeverInfluencesMicro := by
  intro w w' p q p' q' n x y hmicro hp hq
  calc p'.micro = microStep^[n] p.micro := nextBytes_ensures_micro w p n _ hp
    _ = microStep^[n] q.micro := by rw [hmicro]
    _ = q'.micro := (nextBytes_ensures_micro w' q n _ hq).symm

end Sys2Proof.Machine
end

section
/-! The invariant of the machine, one clause of it at a time: every command keeps each clause of its architectural
state, so every step does. -/

namespace Sys2Proof.Machine

open Sys2Proof.Safety

/-- FAULT is 1 only where REG_WIDTH is finite (10_state.md R29). -/
def Arch.FaultNeedsFinite (a : Arch) : Prop := a.fault = true → a.regWidth ≠ .unbounded

/-- The registers of U fit REG_WIDTH (60_exceptions.md R178). -/
def Arch.UserFits (a : Arch) : Prop := ∀ p, a.user = .seeded p → p.Fits a.regWidth

/-- A loaded key has a legal length, its own length in KLEN and its own schedule in RK (10_state.md R26, R27). -/
def Arch.KeyMatchesSchedule (a : Arch) : Prop :=
  ∀ k, a.cipher = .loaded k →
    k.klen.toNat ∈ [16, 24, 32] ∧ k.masterKey.length = k.klen.toNat ∧ expandKey a.regWidth k.masterKey = some k.rk

theorem inv_iff (s : State) :
    Inv s ↔ s.arch.FaultNeedsFinite ∧ s.arch.UserFits ∧ s.arch.KeyMatchesSchedule := Iff.rfl

section Checks

variable {P : Arch → Prop} {a : Arch}

/-! What holds before a command and after every way its checks let it run holds after it. -/

theorem unlessFaulted_arch {x : Answer} (ha : P a) (hx : P x.1) : P (unlessFaulted a x).1 := by
  obtain ⟨-, h⟩ | ⟨-, h⟩ := unlessFaulted_cases a x <;> rw [h]
  · exact ha
  · exact hx

theorem withUser_arch {f : Prng → Answer} (ha : P a) (hf : ∀ p, a.user = .seeded p → P (f p).1) :
    P (withUser a f).1 := by
  obtain ⟨-, h⟩ | ⟨p, hp, h⟩ := withUser_cases a f <;> rw [h]
  · exact ha
  · exact hf p hp

theorem orOverflow_arch {β : Type} {y : Option β} {Q : β → Prop} {ov : Answer} {run : β → Answer} (hy : Ensures y Q)
    (hov : P ov.1) (hrun : ∀ b, Q b → P (run b).1) : P (orOverflow y ov run).1 := by
  cases y with
  | none => exact hov
  | some b => exact hrun b (hy b rfl)

end Checks

namespace CommandAnswer

variable {i : Instr} {a : Arch} {x : Answer}

theorem user_eq (h : CommandAnswer i a x) (hi : isPrngCommand i = false) : x.1.user = a.user := by
  by_contra hne
  exact Bool.false_ne_true (hi.symm.trans (h.user_frame hne).1)

theorem cipher_eq (h : CommandAnswer i a x) (hi : ¬ ∃ n, i = .keyload n) : x.1.cipher = a.cipher := by
  by_contra hne
  exact hi (h.cipher_frame hne).2

/-- FAULT is set by the two overflows alone, which need a finite width. -/
theorem faultNeedsFinite (h : CommandAnswer i a x) (ha : a.FaultNeedsFinite) : x.1.FaultNeedsFinite := by
  cases h with
  | overflow _ hw | overflowUser _ hw => exact fun _ => hw
  | error | advance | load | read => exact ha

end CommandAnswer

section Clauses

variable {a : Arch}

theorem Arch.UserFits.overflowUser : (overflowUser a).1.UserFits := fun _ h => nomatch h

theorem Arch.UserFits.setUser {p : Prng} (h : p.Fits a.regWidth) : (a.setUser p).UserFits := by
  intro q hq
  cases hq
  exact h

/-- Only the PRNG commands load or advance U, and what they load fits. -/
theorem answerOf_userFits (i : Instr) (c : Cells Byte i.payloadLen) (ha : a.UserFits) :
    (answerOf i c a).1.UserFits := by
  by_cases hi : isPrngCommand i = true
  · cases i with
    | pseed n =>
      rw [answerOf_pseed]
      exact unlessFaulted_arch ha (orOverflow_arch (seed_ensures_fits _ _) .overflowUser fun _ hp => .setUser hp)
    | pnextint bits =>
      rw [answerOf_pnextint]
      refine unlessFaulted_arch ha (withUser_arch ha fun p hp => ?_)
      split
      · exact ha
      · exact orOverflow_arch (nextInt_ensures_fits (ha p hp) bits) .overflowUser fun _ hr => .setUser hr
    | pnextbytes length =>
      rw [answerOf_pnextbytes]
      exact unlessFaulted_arch ha (withUser_arch ha fun p hp =>
        orOverflow_arch (nextBytes_ensures_fits (ha p hp) length) .overflowUser fun _ hr => .setUser hr)
    | keyload | encrypt | decrypt | rdrk | sboxgen | isboxgen => cases hi
  · have hans := commandAnswer_answerOf i c a
    unfold Arch.UserFits
    rw [hans.user_eq (Bool.eq_false_of_not_eq_true hi), hans.regWidth_eq]
    exact ha

theorem legalKeyLen_iff (n : Nat) : legalKeyLen n = true ↔ n ∈ [16, 24, 32] := by
  simp [legalKeyLen, or_assoc]

/-- The six bits of KLEN hold every legal length. -/
theorem toNat_klen : ∀ n ∈ [16, 24, 32], (BitVec.ofNat 6 n).toNat = n := by decide

/-- The cipher context that a KEYLOAD writes (42_key_schedule.md R132). -/
theorem Arch.KeyMatchesSchedule.setCipher {n : Nat} {key : List Byte} {rk : RoundKeys} (hlegal : n ∈ [16, 24, 32])
    (hlen : key.length = n) (hrk : expandKey a.regWidth key = some rk) :
    (a.setCipher ⟨BitVec.ofNat 6 n, key, rk⟩).KeyMatchesSchedule := by
  intro k hk
  cases hk
  rw [toNat_klen n hlegal]
  exact ⟨hlegal, hlen, hrk⟩

/-- Only KEYLOAD writes the cipher context, and it writes a key with its schedule. -/
theorem answerOf_keyMatchesSchedule (i : Instr) (c : Cells Byte i.payloadLen) (ha : a.KeyMatchesSchedule) :
    (answerOf i c a).1.KeyMatchesSchedule := by
  by_cases hi : ∃ n, i = .keyload n
  · obtain ⟨n, rfl⟩ := hi
    rw [answerOf_keyload]
    refine unlessFaulted_arch ha ?_
    split
    · next hlegal =>
      exact orOverflow_arch (fun _ hrk => hrk) ha fun rk hrk =>
        .setCipher ((legalKeyLen_iff n).mp hlegal) c.size hrk
    · exact ha
  · have hans := commandAnswer_answerOf i c a
    unfold Arch.KeyMatchesSchedule
    rw [hans.cipher_eq hi, hans.regWidth_eq]
    exact ha

end Clauses

theorem exec_keeps_inv {i : Instr} {s t : State} (hs : Inv s) (h : exec i s = .next t) : Inv t := by
  obtain ⟨hfault, huser, hkey⟩ := (inv_iff s).mp hs
  obtain ⟨c, rest, -, rfl⟩ := exec_next h
  exact ⟨(commandAnswer_answerOf i c s.arch).faultNeedsFinite hfault, answerOf_userFits i c huser,
    answerOf_keyMatchesSchedule i c hkey⟩

/-- A word that is no command changes no architectural state (30_encoding.md R76). -/
theorem answerIllegal_arch {s t : State} (h : answerIllegal s = .next t) : t.arch = s.arch := by
  obtain ⟨-, -, -, rfl⟩ := transact_next h
  exact unlessFaulted_arch (P := (· = s.arch)) rfl rfl

/-- Settles O21: a step is idle, a command, which keeps each clause, or an illegal word, which changes nothing. -/
theorem stepKeepsInvariant : Obligations.StepKeepsInvariant := by
  intro s t hs h
  obtain ⟨-, hidle⟩ | ⟨w, rest, i, -, -, hstep⟩ | ⟨w, rest, e, -, -, hstep⟩ := step_cases s
  · rw [hidle] at h
    cases h
    exact hs
  · rw [hstep] at h
    exact exec_keeps_inv (s := { s with cmd := rest }) hs h
  · rw [hstep] at h
    rw [inv_iff, answerIllegal_arch h]
    exact hs

end Sys2Proof.Machine
end

section
/-! The read-only commands (20_memory.md R60): what they answer depends on their payload and on the architectural state
alone, and unless they overflow they leave that state as it was. -/

namespace Sys2Proof.Machine

open Sys2Proof.Safety

/-- No command of the PRNG group is read-only: PSEED, PNEXTINT and PNEXTBYTES load or advance U (20_memory.md R60). -/
theorem isReadOnlyCommand_of_isPrngCommand {i : Instr} (h : isPrngCommand i = true) : isReadOnlyCommand i = false := by
  cases i with
  | pseed | pnextint | pnextbytes => rfl
  | keyload | encrypt | decrypt | rdrk | sboxgen | isboxgen => cases h

/-- A read-only command that does not overflow changes no architectural state (20_memory.md R60). -/
theorem CommandAnswer.arch_eq {i : Instr} {a : Arch} {x : Answer} (h : CommandAnswer i a x)
    (hi : isReadOnlyCommand i = true) (hne : x.2.status ≠ .overflow) : x.1 = a := by
  cases h with
  | error | read => rfl
  | overflow | overflowUser => exact absurd rfl hne
  | advance p dout hprng => exact nomatch hi.symm.trans (isReadOnlyCommand_of_isPrngCommand hprng)
  | load n k hload =>
    subst hload
    cases hi

/-- Settles O19: the command leaves the architectural state as it was, so the same payload meets the same state again
and is given the same answer. -/
theorem readOnlyCommandsRepeat : Obligations.ReadOnlyCommandsRepeat := by
  intro i s t r hi h hresp hr
  obtain ⟨c, rest, hdin, rfl⟩ := exec_next h
  have hans : (answerOf i c s.arch).2 = r := by simpa using hresp
  have harch : (answerOf i c s.arch).1 = s.arch := (commandAnswer_answerOf i c s.arch).arch_eq hi (hans ▸ hr)
  refine ⟨harch, ?_⟩
  rw [exec_append i _ c (rest := rest)]
  · simp only [harch, hans]
  · exact hdin

end Sys2Proof.Machine
end

section
/-! The decoder and the encoder (30_encoding.md R70, R74): the two fields of a word as numbers, and the decoder said
once: a word decodes to the command that has its operation code and its operand. -/

namespace Sys2Proof

open Sys2Proof.Machine Sys2Proof.Safety

theorem toNat_opcOf (w : Word) : (opcOf w).toNat = opcNat w := by
  have := w.isLt
  simp only [opcOf, opcNat, BitVec.extractLsb'_toNat, Nat.shiftRight_eq_div_pow]
  omega

theorem argOf_eq_argNat (w : Word) : argOf w = argNat w := by
  simp [argOf, argNat]

theorem argNat_lt (w : Word) : argNat w < 2 ^ 24 := Nat.mod_lt _ (by decide)

/-- The number of a word written as its two fields. -/
theorem toNat_append_ofNat (opc : Byte) (n : Nat) :
    (opc ++ BitVec.ofNat 24 n).toNat = opc.toNat * 2 ^ 24 + n % 2 ^ 24 := by
  rw [BitVec.toNat_append, ← Nat.shiftLeft_add_eq_or_of_lt (BitVec.isLt _), BitVec.toNat_ofNat, Nat.shiftLeft_eq]

/-- A word is its two fields and nothing else (30_encoding.md R70). -/
theorem opcOf_append_argOf (w : Word) : opcOf w ++ BitVec.ofNat 24 (argOf w) = w := by
  apply BitVec.eq_of_toNat_eq
  rw [toNat_append_ofNat, toNat_opcOf, argOf_eq_argNat, opcNat, argNat, Nat.mod_mod, Nat.div_add_mod']

/-- The decoder, said once: a word decodes to the command with its operation code and its operand, and to no other. -/
theorem decode_eq_ok_iff {w : Word} {i : Instr} : decode w = .ok i ↔ opcOf w = i.opc ∧ argOf w = i.arg := by
  constructor
  · intro h
    unfold decode at h
    split at h <;> cases h <;> exact ⟨BitVec.eq_of_toNat_eq ‹_›, rfl⟩
  · rintro ⟨hopc, harg⟩
    unfold decode
    rw [hopc, harg]
    cases i <;> rfl

theorem fields_of_decode_eq_ok {w : Word} {i : Instr} (h : decode w = .ok i) :
    opcNat w = i.opc.toNat ∧ argNat w = i.arg := by
  obtain ⟨hopc, harg⟩ := decode_eq_ok_iff.mp h
  exact ⟨by rw [← toNat_opcOf, hopc], by rw [← argOf_eq_argNat, harg]⟩

/-- The decoder rejects exactly the words whose operation code is none of the nine (30_encoding.md R76). -/
theorem exists_decode_eq_error_iff {w : Word} : (∃ e, decode w = .error e) ↔ opcNat w ∉ opcodes := by
  rw [← toNat_opcOf]
  unfold decode
  split
  case h_10 => simp_all [opcodes]
  all_goals simp [opcodes, *]

/-- Settles O1: the two fields read back from the encoding are the command's own. -/
theorem decodeOfEncode : Obligations.DecodeOfEncode := fun i hi =>
  decode_eq_ok_iff.mpr (Laws.EncodeFields.of_wellFormed i hi)

/-- Settles O2: the command has the word's two fields, and they make up the whole word. -/
theorem encodeOfDecode : Obligations.EncodeOfDecode := by
  intro w i h
  obtain ⟨hopc, harg⟩ := decode_eq_ok_iff.mp h
  constructor
  · rw [Instr.WellFormed, ← harg, argOf_eq_argNat]
    exact argNat_lt w
  · rw [encode, ← hopc, ← harg, opcOf_append_argOf]

/-- The mask of the opcode table keeps the operation code (30_encoding.md R74). -/
theorem opcOf_and_mask (w : Word) : opcOf (w &&& 0xFF000000#32) = opcOf w := by
  calc opcOf (w &&& 0xFF000000#32) = opcOf w &&& opcOf 0xFF000000#32 := BitVec.extractLsb'_and
    _ = opcOf w := BitVec.and_allOnes

/-- A word with the match `m` under the mask decodes to the command that has the operation code of `m` and the operand
of the word. -/
theorem decode_of_masked (i : Instr) {w m : Word} (hmask : w &&& 0xFF000000#32 = m) (hopc : opcOf m = i.opc)
    (harg : argNat w = i.arg) : decode w = .ok i :=
  decode_eq_ok_iff.mpr ⟨by rw [← opcOf_and_mask, hmask, hopc], by rw [argOf_eq_argNat, harg]⟩

/-- Settles O3: the match of each row carries the row's operation code. -/
theorem rowSelectedByMatchAndMask : Obligations.RowSelectedByMatchAndMask := fun w =>
  ⟨fun h => decode_of_masked (.pseed (argNat w)) h rfl rfl,
    fun h => decode_of_masked (.pnextint (argNat w)) h rfl rfl,
    fun h => decode_of_masked (.pnextbytes (argNat w)) h rfl rfl,
    fun h => decode_of_masked (.keyload (argNat w)) h rfl rfl,
    fun h => decode_of_masked (.encrypt (argNat w)) h rfl rfl,
    fun h => decode_of_masked (.decrypt (argNat w)) h rfl rfl,
    fun h => decode_of_masked (.rdrk (argNat w)) h rfl rfl,
    fun h => decode_of_masked (.sboxgen (argNat w)) h rfl rfl,
    fun h => decode_of_masked (.isboxgen (argNat w)) h rfl rfl⟩

/-- Settles O5: the decoder computes each of the ten. -/
theorem wordsOfTheSpecDecode : Obligations.WordsOfTheSpecDecode :=
  ⟨rfl, rfl, rfl, rfl, rfl, rfl, rfl, rfl, rfl, rfl⟩

end Sys2Proof
end

section
/-! What a step does with the word it accepts (30_encoding.md R72, R73, R76): whether the word is a command or not, it
is one transaction over the payload the word calls for, whose response has the length of the opcode table. -/

namespace Sys2Proof.Machine

open Sys2Proof.Safety

theorem payloadBytes_of_decode_ok {w : Word} {i : Instr} (h : decode w = .ok i) : payloadBytes w = i.payloadLen := by
  obtain ⟨hopc, harg⟩ := fields_of_decode_eq_ok h
  rw [payloadBytes, hopc, harg]
  cases i <;> rfl

theorem resultBytes_of_decode_ok {w : Word} {i : Instr} (h : decode w = .ok i) : resultBytes w = i.resultLen := by
  obtain ⟨hopc, harg⟩ := fields_of_decode_eq_ok h
  rw [resultBytes, hopc, harg]
  cases i <;> rfl

/-- An illegal word calls for no payload (30_encoding.md R72). -/
theorem payloadBytes_of_illegal {w : Word} (h : opcNat w ∉ opcodes) : payloadBytes w = 0 :=
  if_neg fun hmem => h ((by decide : [0x10, 0x20, 0x21, 0x22] ⊆ opcodes) hmem)

/-- DOUT has `len` bytes on OK and is empty otherwise (30_encoding.md R73). -/
def Response.HasLength (r : Response) (len : Nat) : Prop :=
  (r.status = .ok → r.dout.length = len) ∧ (r.status ≠ .ok → r.dout = [])

namespace Response.HasLength

variable {len : Nat}

theorem ok {dout : List Byte} (h : dout.length = len) : HasLength ⟨.ok, dout⟩ len :=
  ⟨fun _ => h, fun hne => absurd rfl hne⟩

theorem error {e : Status} (h : e ≠ .ok) : HasLength ⟨e, []⟩ len := ⟨fun he => absurd he h, fun _ => rfl⟩

theorem unlessFaulted {a : Arch} {x : Answer} (h : x.2.HasLength len) : (unlessFaulted a x).2.HasLength len := by
  obtain ⟨-, hx⟩ | ⟨-, hx⟩ := unlessFaulted_cases a x <;> rw [hx]
  · exact error nofun
  · exact h

end Response.HasLength

theorem CommandAnswer.hasLength {i : Instr} {a : Arch} {x : Answer} (h : CommandAnswer i a x) :
    x.2.HasLength i.resultLen := by
  cases h with
  | error e he => exact .error fun hok => by subst hok; cases he
  | overflow | overflowUser => exact .error nofun
  | advance _ _ _ hlen | read _ _ hlen => exact .ok hlen
  | load n k hi => subst hi; exact .ok rfl

/-- A step that accepts a word is one transaction over the payload the word calls for, legal or not. -/
theorem step_eq_transact {s : State} {w : Word} {rest : List Word} (hc : s.cmd = w :: rest) :
    ∃ run : Cells Byte (payloadBytes w) → Arch → Answer,
      (∀ c a, (run c a).2.HasLength (resultBytes w)) ∧
      step s = transact (payloadBytes w) run { s with cmd := rest } := by
  cases hd : decode w with
  | ok i =>
    rw [payloadBytes_of_decode_ok hd, resultBytes_of_decode_ok hd, step_of_decode_ok hc hd, exec_eq_transact]
    exact ⟨answerOf i, fun c a => (commandAnswer_answerOf i c a).hasLength, rfl⟩
  | error e =>
    rw [payloadBytes_of_illegal (exists_decode_eq_error_iff.mp ⟨e, hd⟩), step_of_decode_error hc hd]
    exact ⟨fun _ a => unlessFaulted a (raise .illegalCommand a), fun _ a => .unlessFaulted (.error nofun), rfl⟩

/-- A transaction is refused exactly where its payload is not there (30_encoding.md R72, log 2). -/
theorem transact_eq_refused_iff {n : Nat} {run : Cells Byte n → Arch → Answer} {s : State} {e : Refusal} :
    transact n run s = .refused e ↔ s.din.length < n ∧ e = .payloadShort := by
  unfold transact
  rw [← takePayload_eq_none]
  cases takePayload n s.din <;> simp [eq_comm]

/-- A transaction whose payload is there takes exactly its bytes and gives one response (30_encoding.md R72, R73). -/
theorem transact_of_le {n : Nat} (run : Cells Byte n → Arch → Answer) {s : State} (h : n ≤ s.din.length) :
    ∃ a r, transact n run s = .next ⟨a, s.cmd, s.din.drop n, s.resp ++ [r]⟩ := by
  refine ⟨_, _, transact_append run s ⟨s.din.take n, List.length_take_of_le h⟩ ?_⟩
  exact (List.take_append_drop n s.din).symm

/-- Settles O6: the accepted word runs the command it decodes to. -/
theorem stepRunsDecodedCommand : Obligations.StepRunsDecodedCommand := fun _ _ _ _ => step_of_decode_ok

/-- Settles O4: the rejected words, the count of the other codes, and the answer as a transaction without payload. -/
theorem illegalWordsAnswered : Obligations.IllegalWordsAnswered := by
  refine ⟨fun w => exists_decode_eq_error_iff, by decide +kernel, by decide, by decide, fun s w rest hc hw hf => ?_⟩
  obtain ⟨e, hd⟩ := exists_decode_eq_error_iff.mpr hw
  rw [step_of_decode_error hc hd, answerIllegal, transact_zero, unlessFaulted_of_ok hf]
  rfl

/-- Settles O8: the step is a transaction over the word's payload, which is there. -/
theorem everyWordTakesItsPayload : Obligations.EveryWordTakesItsPayload := by
  intro s w rest hc hlen
  obtain ⟨run, -, hstep⟩ := step_eq_transact hc
  rw [hstep]
  exact transact_of_le run hlen

/-- Settles O9: the step is a transaction, which is refused for want of its payload alone. -/
theorem onlyShortPayloadIsRefused : Obligations.OnlyShortPayloadIsRefused := by
  intro s w rest e hc
  obtain ⟨run, -, hstep⟩ := step_eq_transact hc
  rw [hstep]
  exact transact_eq_refused_iff

/-- Settles O10: the one response of the step's transaction has the length of the table. -/
theorem oneResponsePerCommand : Obligations.OneResponsePerCommand := by
  intro s t w rest hc h
  obtain ⟨run, hlen, hstep⟩ := step_eq_transact hc
  obtain ⟨c, _, -, rfl⟩ := transact_next (hstep ▸ h)
  exact ⟨_, rfl, hlen c s.arch⟩

end Sys2Proof.Machine
end

section
/-! The pseudo-commands (30_encoding.md R84): the word of a command as a number, and the least number of bytes that
hold a value. -/

namespace Sys2Proof

open Sys2Proof.Safety

/-- The word of a command is its operation code above its operand (30_encoding.md R70). -/
theorem toNat_encode {i : Instr} (h : i.WellFormed) : (encode i).toNat = i.opc.toNat * 2 ^ 24 + i.arg := by
  rw [encode, toNat_append_ofNat, Nat.mod_eq_of_lt h]

theorem toNat_encode_pseed {n : Nat} (h : n < 2 ^ 24) : (encode (.pseed n)).toNat = 0x10000000 + n := by
  simpa [Instr.opc, Instr.arg] using toNat_encode (i := .pseed n) h

/-- `byteLen v` is the least number of bytes that hold `v`. -/
theorem byteLen_le_iff {v n : Nat} : byteLen v ≤ n ↔ v < 256 ^ n := by
  have hpow : 256 ^ n = 2 ^ (8 * n) := by rw [Nat.pow_mul]
  unfold byteLen byteCount
  split
  · next h => subst h; simp
  · next h =>
    rw [hpow, ← Nat.log2_lt h]
    omega

theorem beSum_lt (bs : List Byte) : beSum bs < 256 ^ bs.length := by
  obtain ⟨-, -, -, hread, -⟩ := bigEndianConversions
  rw [← hread bs, length_bytesBE, ← beNat_eq_beSum, beNat_bytesBE]
  exact Nat.mod_lt _ (by positivity)

theorem length_payload_pseedi (v : Nat) : (Pseudo.payload (.pseedi v)).length = byteLen v := length_bytesBE _ _

/-- The payload that PSEEDI supplies has the value it names (30_encoding.md R84). -/
theorem beSum_payload_pseedi (v : Nat) : beSum (Pseudo.payload (.pseedi v)) = v := by
  rw [Pseudo.payload, ← beNat_eq_beSum, beNat_bytesBE, Nat.mod_eq_of_lt (byteLen_le_iff.mp le_rfl)]

/-- Settles O53: the word of PSEED for RESEED and PSEEDI, and `byteLen` as the least length for PSEEDI's payload. -/
theorem pseudoCommandsAssemble : Obligations.PseudoCommandsAssemble := by
  refine ⟨fun n hn => toNat_encode_pseed hn, rfl, rfl, fun v => ⟨?_, beSum_payload_pseedi v, fun bs hbs => ?_, ?_⟩⟩
  · rw [length_payload_pseedi]; rfl
  · rw [length_payload_pseedi, byteLen_le_iff, ← hbs]
    exact beSum_lt bs
  · rw [length_payload_pseedi]
    exact toNat_encode_pseed

end Sys2Proof
end

section
/-! The Collatz step functions (40_collatz_step.md): the generalized step by its modulus and by the parity of its argument,
and how far `n / 2` or `(2c + 1) * n + 1` can grow, of which the standard map and the micro step are the cases `c = 1` and
`c = 2`. -/

namespace Sys2Proof.Machine

section Cases

variable (n a b : Nat)

/-- Modulus 0 is no reduction (40_collatz_step.md R102). -/
theorem extendedCollatz_modulus_zero : extendedCollatz n a b 0 = if n % 2 = 0 then n / 2 else a * n + b := rfl

/-- A positive modulus reduces either branch (40_collatz_step.md R102; log 14). -/
theorem extendedCollatz_modulus_pos {m : Nat} (hm : 0 < m) :
    extendedCollatz n a b m = extendedCollatz n a b 0 % m := if_pos hm

theorem extendedCollatz_three_one_zero : extendedCollatz n 3 1 0 = nextCollatz n := rfl

theorem extendedCollatz_zero_left (m : Nat) : extendedCollatz 0 a b m = 0 := by
  rcases m.eq_zero_or_pos with rfl | hm
  · rfl
  · rw [extendedCollatz_modulus_pos _ _ _ hm]
    exact Nat.zero_mod m

theorem extendedCollatz_modulus_one : extendedCollatz n a b 1 = 0 := by
  rw [extendedCollatz_modulus_pos _ _ _ Nat.one_pos, Nat.mod_one]

theorem extendedCollatz_even : extendedCollatz (2 * n) a b 0 = n := by
  rw [extendedCollatz_modulus_zero, if_pos (by omega)]
  omega

theorem extendedCollatz_odd : extendedCollatz (2 * n + 1) a b 0 = a * (2 * n + 1) + b := by
  rw [extendedCollatz_modulus_zero, if_neg (by omega)]

end Cases

/-- Settles O23: the two cases of the modulus, and the four corner cases of the rule. -/
theorem generalizedStep : Obligations.GeneralizedStep := by
  refine ⟨fun n a b m => ?_, extendedCollatz_three_one_zero, extendedCollatz_zero_left, extendedCollatz_modulus_one,
    fun _ => rfl⟩
  split
  · next h => rw [h, extendedCollatz_modulus_zero]
  · next h => rw [extendedCollatz_modulus_pos _ _ _ (Nat.pos_of_ne_zero h), extendedCollatz_modulus_zero]

section Growth

variable (c : Nat)

/-- The unreduced generalized step whose odd branch is `(2c + 1) * n + 1`. -/
def oddStep (n : Nat) : Nat := extendedCollatz n (2 * c + 1) 1 0

theorem oddStep_one : oddStep 1 = nextCollatz := rfl

theorem oddStep_two : oddStep 2 = microStep := rfl

theorem oddStep_even (n : Nat) : oddStep c (2 * n) = n := extendedCollatz_even n _ _

theorem oddStep_odd (n : Nat) : oddStep c (2 * n + 1) = 2 * ((2 * c + 1) * n + (c + 1)) := by
  rw [oddStep, extendedCollatz_odd]
  ring

variable {n : Nat}

theorem oddStep_pos (hn : 1 ≤ n) : 1 ≤ oddStep c n := by
  obtain ⟨t, rfl | rfl⟩ := Nat.even_or_odd' n
  · rw [oddStep_even]
    omega
  · rw [oddStep_odd]
    omega

theorem oddStep_le (hn : 1 ≤ n) : oddStep c n ≤ 2 * (c + 1) * n := by
  obtain ⟨t, rfl | rfl⟩ := Nat.even_or_odd' n
  · rw [oddStep_even]
    nlinarith
  · rw [oddStep_odd]
    nlinarith

/-- An odd step is followed by a halving (40_collatz_step.md R105). -/
theorem oddStep_oddStep_le (hn : 1 ≤ n) : oddStep c (oddStep c n) ≤ (c + 1) * n := by
  obtain ⟨t, rfl | rfl⟩ := Nat.even_or_odd' n
  · calc oddStep c (oddStep c (2 * t)) = oddStep c t := by rw [oddStep_even]
      _ ≤ 2 * (c + 1) * t := oddStep_le c (by omega)
      _ = (c + 1) * (2 * t) := by ring
  · rw [oddStep_odd, oddStep_even]
    nlinarith

/-- The bound of 40_collatz_step.md R105: two steps at a time, with at most one step left over. -/
theorem iterate_oddStep_le (k : Nat) (hn : 1 ≤ n) :
    (oddStep c)^[k] n ≤ 2 * (c + 1) * (c + 1) ^ (k / 2) * n := by
  induction k using Nat.twoStepInduction generalizing n with
  | zero => simpa using Nat.le_mul_of_pos_left n (by omega : 0 < 2 * (c + 1))
  | one => simpa using oddStep_le c hn
  | more k ih _ =>
    calc (oddStep c)^[k + 2] n = (oddStep c)^[k] (oddStep c (oddStep c n)) := rfl
      _ ≤ 2 * (c + 1) * (c + 1) ^ (k / 2) * oddStep c (oddStep c n) := ih (oddStep_pos c (oddStep_pos c hn))
      _ ≤ 2 * (c + 1) * (c + 1) ^ (k / 2) * ((c + 1) * n) := Nat.mul_le_mul_left _ (oddStep_oddStep_le c hn)
      _ = 2 * (c + 1) * (c + 1) ^ ((k + 2) / 2) * n := by
        rw [Nat.add_div_right k Nat.two_pos]
        ring

end Growth

/-- Settles O24: the bound of `(2c + 1) * n + 1` at `c = 1` and at `c = 2`. -/
theorem growthBounds : Obligations.GrowthBounds := fun _ k hn =>
  ⟨oddStep_one ▸ iterate_oddStep_le 1 k hn, oddStep_two ▸ iterate_oddStep_le 2 k hn⟩

end Sys2Proof.Machine
end

section
/-! The draws of the PRNG by their rules (41_prng.md R111, R113, R116, R118): each computation on registers gives the
result of its rule exactly where every value it assigns fits, and no result elsewhere. -/

namespace Sys2Proof.Machine

open Sys2Proof.Safety

/-- The computation `x` gives `b` where every value it assigns fits, `F`, and no result elsewhere
(60_exceptions.md R178). -/
def Gives {β : Type} (x : Option β) (F : Prop) (b : β) : Prop := (F → x = some b) ∧ (¬ F → x = none)

namespace Gives

variable {β γ : Type} {x : Option β} {F G : Prop} {b : β}

theorem eq_some (h : Gives x F b) (hF : F) : x = some b := h.1 hF

theorem eq_none (h : Gives x F b) (hF : ¬ F) : x = none := h.2 hF

theorem some_iff (h : Gives x F b) {y : β} : x = some y ↔ F ∧ b = y := by
  by_cases hF : F
  · simp [h.eq_some hF, hF]
  · simp [h.eq_none hF, hF]

/-- Two computations that give one result where the same values fit are equal. -/
theorem eq {y : Option β} (hx : Gives x F b) (hy : Gives y F b) : x = y := by
  by_cases hF : F
  · rw [hx.eq_some hF, hy.eq_some hF]
  · rw [hx.eq_none hF, hy.eq_none hF]

theorem pure : Gives (some b) True b := ⟨fun _ => rfl, fun h => absurd trivial h⟩

theorem congr_fits (h : Gives x F b) (hFG : F ↔ G) : Gives x G b := propext hFG ▸ h

theorem bind {f : β → Option γ} {c : γ} (h : Gives x F b) (hf : F → Gives (f b) G c) :
    Gives (x >>= f) (F ∧ G) c := by
  by_cases hF : F
  · rw [h.eq_some hF]
    exact (hf hF).congr_fits (by simp [hF])
  · rw [h.eq_none hF]
    exact ⟨fun hFG => absurd hFG.1 hF, fun _ => rfl⟩

theorem map (h : Gives x F b) (f : β → γ) : Gives (x.map f) F (f b) :=
  ⟨fun hF => by rw [h.eq_some hF]; rfl, fun hF => by rw [h.eq_none hF]; rfl⟩

/-- What a command answers with such a computation in it: the result goes on, or the command overflows. -/
theorem orOverflow_some (h : Gives x F b) (hF : F) (ov : Answer) (run : β → Answer) :
    orOverflow x ov run = run b := by
  rw [h.eq_some hF]
  rfl

theorem orOverflow_none (h : Gives x F b) (hF : ¬ F) (ov : Answer) (run : β → Answer) :
    orOverflow x ov run = ov := by
  rw [h.eq_none hF]
  rfl

end Gives

section Registers

variable (w : RegWidth)

theorem assign_gives (v : Nat) : Gives (assign w v) (belowWidth w v) v := by
  rw [Gives, assign_eq_none, ← fits_iff_belowWidth, Bool.not_eq_true]
  exact ⟨fun h => assign_eq_some.mpr ⟨h, rfl⟩, id⟩

/-- Both registers are loaded from the seed (41_prng.md R111). -/
theorem seed_gives (s : Nat) : Gives (seed w s) (seedFits w s) (seedRef s) :=
  .congr_fits ((assign_gives w s).bind fun _ => (assign_gives w _).bind fun _ => .pure) (by rw [and_true]; rfl)

/-- Step 2 of the churn assigns a value only where step 1 gave 1 (41_prng.md R113). -/
theorem reinject_gives (p : Prng) :
    Gives (reinject w (stateStep p) p.micro) (stateStep p = 1 → belowWidth w (reinjected p)) (churnRef p).state := by
  unfold reinject churnRef
  split
  · next h => exact (assign_gives w _).congr_fits (imp_iff_right h).symm
  · next h => exact Gives.pure.congr_fits (iff_of_true trivial fun h1 => absurd h1 h)

theorem churn_gives (p : Prng) :
    Gives (churn w p) (churnFits w p) (churnRef p, (churnRef p).state ^^^ (churnRef p).micro) :=
  .congr_fits
    ((assign_gives w _).bind fun _ => (reinject_gives w p).bind fun _ => (assign_gives w _).bind fun _ => .pure)
    (by rw [and_true]; rfl)

theorem streamFits_succ {p : Prng} {m : Nat} :
    streamFits w p (m + 1) ↔ churnFits w p ∧ streamFits w (churnRef p) m := by
  simp only [streamFits, Nat.forall_lt_succ_left', streamRef_succ', streamRef.eq_1]

theorem streamFits_add {p : Prng} {a b : Nat} :
    streamFits w p (a + b) ↔ streamFits w p a ∧ streamFits w (streamRef p a) b := by
  induction a generalizing p with
  | zero => simp [streamFits_zero, streamRef]
  | succ a ih => rw [Nat.succ_add, streamFits_succ, streamFits_succ, ih, streamRef_succ', and_assoc]

end Registers

/-- The bytes of `m` churns from `p`, in call order (41_prng.md R116). -/
def streamBytes (p : Prng) (m : Nat) : Cells Byte m := ⟨(List.range m).map (streamByte p), by simp⟩

@[simp] theorem cells_streamBytes (p : Prng) (m : Nat) :
    (streamBytes p m).cells = (List.range m).map (streamByte p) := rfl

theorem streamByte_add (p : Prng) (a k : Nat) : streamByte p (a + k) = streamByte (streamRef p a) k := by
  simp only [streamByte, Nat.add_assoc, streamRef_add p a]

theorem streamByte_succ (p : Prng) (k : Nat) : streamByte p (k + 1) = streamByte (churnRef p) k := by
  rw [Nat.add_comm, streamByte_add]
  rfl

theorem streamBytes_succ (p : Prng) (m : Nat) :
    streamBytes p (m + 1) = Cells.cons (streamByte p 0) (streamBytes (churnRef p) m) := by
  simp [streamBytes, Cells.cons, List.range_succ_eq_map, streamByte_succ]

theorem nextBytes_gives (w : RegWidth) (p : Prng) (m : Nat) :
    Gives (nextBytes w p m) (streamFits w p m) (streamRef p m, streamBytes p m) := by
  induction m generalizing p with
  | zero => exact Gives.pure.congr_fits (iff_of_true trivial (streamFits_zero w p))
  | succ m ih =>
    rw [streamRef_succ', streamBytes_succ]
    exact .congr_fits ((churn_gives w p).bind fun _ => (ih (churnRef p)).bind fun _ => .pure)
      (by rw [and_true, streamFits_succ])

/-- Settles O25: the three assignments of the churn, one after the other. -/
theorem churnByRule : Obligations.ChurnByRule := churn_gives

/-- Settles O29: by induction on the length, one churn at a time. -/
theorem bytesAreTheChurnStream : Obligations.BytesAreTheChurnStream := fun w p length =>
  ⟨fun h => ⟨streamBytes p length, (nextBytes_gives w p length).eq_some h, rfl⟩,
    (nextBytes_gives w p length).eq_none⟩

end Sys2Proof.Machine
end

section
/-! Corner cases of the churn and the degenerate seeds (41_prng.md R115, R122). -/

namespace Sys2Proof.Machine

open Sys2Proof.Safety

/-- What a reinjection assigns (41_prng.md R113 step 2). -/
theorem reinject_one_ensures (w : RegWidth) (m : Nat) :
    Ensures (reinject w 1 m) (· = (m * 3 + 1) ^^^ 0x12345678) := assign_ensures_eq w _

/-- `3 * m + 1` is never the reinjection mask (41_prng.md R115(c)). -/
theorem reinjected_ne_zero (m : Nat) : (m * 3 + 1) ^^^ 0x12345678 ≠ 0 := by
  rw [ne_eq, Nat.xor_eq_zero_iff]
  omega

/-- The one micro value that reinjects 1 (41_prng.md R115(b)). -/
theorem reinjected_eq_one_iff (m : Nat) : (m * 3 + 1) ^^^ 0x12345678 = 1 ↔ m = 101806632 := by
  calc (m * 3 + 1) ^^^ 0x12345678 = 1 ↔ (m * 3 + 1) ^^^ 0x12345678 = 0x12345679 ^^^ 0x12345678 := Iff.rfl
    _ ↔ m * 3 + 1 = 0x12345679 := Nat.xor_left_inj
    _ ↔ m = 101806632 := by omega

/-- Settles O26: the reinjected value by arithmetic, and the churn that reinjects by its rule. -/
theorem reinjectionNeverZero : Obligations.ReinjectionNeverZero := by
  refine ⟨fun m => ⟨_, reinject_unbounded 1 m⟩, fun w m v h => ?_, fun w p q out hone h => ?_⟩
  · obtain rfl := reinject_one_ensures w m v h
    exact ⟨reinjected_ne_zero m, reinjected_eq_one_iff m, fun hm => hm ▸ rfl⟩
  · obtain ⟨⟨-, hfits, -⟩, hq⟩ := (churn_gives w p).some_iff.mp h
    obtain ⟨rfl, -⟩ := Prod.mk.inj hq
    rw [← (show stateStep p = 1 from hone)]
    exact (reinject_gives w p).eq_some hfits

/-- The micro step keeps 0 (41_prng.md R115(e)). -/
theorem isFixedPt_microStep_zero : Function.IsFixedPt microStep 0 := rfl

/-- The cycle of seed 0xCAFEBABF (41_prng.md R122(c)). -/
theorem isPeriodicPt_microStep_one : Function.IsPeriodicPt microStep 7 1 := rfl

theorem iterate_microStep_one (n : Nat) : microStep^[n] 1 = [1, 6, 3, 16, 8, 4, 2].getD (n % 7) 0 := by
  have hcycle : ∀ r < 7, microStep^[r] 1 = [1, 6, 3, 16, 8, 4, 2].getD r 0 := by decide
  rw [← isPeriodicPt_microStep_one.iterate_mod_apply, hcycle _ (Nat.mod_lt _ (by decide))]

/-- Step 1 keeps the state 0, which is never reinjected (41_prng.md R115(d)). -/
theorem streamRef_state_zero (m n : Nat) : (streamRef ⟨0, m⟩ n).state = 0 := by
  induction n with
  | zero => rfl
  | succ n ih => simp [streamRef, churnRef, stateStep, ih]

/-- Settles O28: 0 is a fixed point of both steps, and 1 has period 7 under the micro step. -/
theorem degenerateSeeds : Obligations.DegenerateSeeds := by
  refine ⟨rfl, rfl, rfl, fun n p x => ⟨fun h => ?_, fun h => ?_, fun h => ?_⟩⟩
  · rw [nextBytes_ensures_micro _ _ n _ h]
    exact isFixedPt_microStep_zero.iterate n
  · obtain ⟨-, hp⟩ := (nextBytes_gives _ _ n).some_iff.mp h
    obtain ⟨rfl, -⟩ := Prod.mk.inj hp
    exact streamRef_state_zero _ n
  · rw [nextBytes_ensures_micro _ _ n _ h]
    exact iterate_microStep_one n

end Sys2Proof.Machine
end

section
/-! Integer draws (41_prng.md R118, R119) and the concatenation law of byte draws, which integer draws do not share
(R123). -/

namespace Sys2Proof.Machine

open Sys2Proof.Safety

/-- The loop of an integer draw, as the byte draw of as many churns (41_prng.md R119). -/
theorem packBytes_eq_map_nextBytes (w : RegWidth) (p : Prng) (acc m : Nat) :
    packBytes w p acc m = (nextBytes w p m).map fun r => (r.1, acc * 256 ^ m + beNat r.2.cells) := by
  induction m generalizing p acc with
  | zero => simp
  | succ m ih =>
    simp only [packBytes_succ, nextBytes_succ, ih, Option.map_eq_bind, Option.bind_assoc]
    congr! 3 with c - r
    simp only [Function.comp_apply, Option.bind_some, Cells.cells_cons, beNat_cons, Cells.length_cells]
    congr 2
    ring

/-- Settles O30: the accumulator is the big-endian value of the bytes drawn. -/
theorem integerDrawIsByteDraw : Obligations.IntegerDrawIsByteDraw := by
  intro w p bits _
  simp only [nextInt, packBytes_eq_map_nextBytes, ← beNat_eq_beSum, byteCount]
  cases nextBytes w p ((bits + 7) / 8) <;> simp

/-- The big-endian value of the bytes of `m` churns. -/
def streamNat (p : Prng) (m : Nat) : Nat := beNat (streamBytes p m).cells

theorem nextInt_gives (w : RegWidth) (p : Prng) {bits : Nat} (hbits : 1 ≤ bits) :
    Gives (nextInt w p bits) (streamFits w p (byteCount bits))
      (streamRef p (byteCount bits), streamNat p (byteCount bits) % 2 ^ bits) := by
  rw [integerDrawIsByteDraw w p bits hbits]
  simp only [← beNat_eq_beSum]
  exact (nextBytes_gives w p _).map _

theorem nextInt_unbounded (p : Prng) {bits : Nat} (hbits : 1 ≤ bits) :
    nextInt .unbounded p bits =
      some (streamRef p (byteCount bits), streamNat p (byteCount bits) % 2 ^ bits) :=
  (nextInt_gives .unbounded p hbits).eq_some (streamFits_unbounded _ _)

theorem streamBytes_add (p : Prng) (a b : Nat) :
    (streamBytes p (a + b)).cells = (streamBytes p a).cells ++ (streamBytes (streamRef p a) b).cells := by
  simp [List.range_add, Function.comp_def, streamByte_add]

theorem beNat_append (as bs : List Byte) : beNat (as ++ bs) = beNat as * 256 ^ bs.length + beNat bs := by
  rw [← beNat_foldl, beNat, List.foldl_append]
  rfl

theorem streamNat_add (p : Prng) (a b : Nat) :
    streamNat p (a + b) = streamNat p a * 256 ^ b + streamNat (streamRef p a) b := by
  rw [streamNat, streamBytes_add, beNat_append, Cells.length_cells]
  rfl

theorem streamNat_one (p : Prng) : streamNat p 1 = (streamByte p 0).toNat := by
  simp [streamNat, beNat]

theorem streamNat_lt (p : Prng) (m : Nat) : streamNat p m < 256 ^ m := by
  simpa [streamNat, beNat_eq_beSum] using beSum_lt (streamBytes p m).cells

/-- An integer draw ends with the last byte drawn. -/
theorem streamNat_mod_mod_two (p : Prng) (m : Nat) {bits : Nat} (hbits : 1 ≤ bits) :
    streamNat p (m + 1) % 2 ^ bits % 2 = (streamByte p m).toNat % 2 := by
  have hlast : streamByte (streamRef p m) 0 = streamByte p m := (streamByte_add p m 0).symm
  rw [Nat.mod_mod_of_dvd _ (dvd_pow_self 2 (by omega)), streamNat_add, streamNat_one, hlast]
  omega

/-- Bits `8 * k + r` on of `k + 1` bytes behind `X` stand in the first of them and in `X`. -/
theorem streamNat_div (p : Prng) (a k r : Nat) :
    streamNat p (a + (k + 1)) / 2 ^ (8 * k + r) = (streamNat p a * 256 + (streamByte p a).toNat) / 2 ^ r := by
  have hfirst : streamByte (streamRef p a) 0 = streamByte p a := (streamByte_add p a 0).symm
  have hlow := streamNat_lt (streamRef p (a + 1)) k
  rw [show a + (k + 1) = a + 1 + k by omega, streamNat_add, streamNat_add, streamNat_one, hfirst, pow_add,
    ← Nat.div_div_eq_div_mul, pow_mul, Nat.mul_comm _ (256 ^ k), show (2 : Nat) ^ 8 = 256 from rfl,
    Nat.mul_add_div (by positivity), Nat.div_eq_of_lt hlow, Nat.add_zero, pow_one]

/-- State 0 is kept and an even micro value is halved. -/
theorem streamRef_powTwo (n j : Nat) : streamRef ⟨0, 2 ^ j * n⟩ j = ⟨0, n⟩ := by
  induction j with
  | zero => simp [streamRef]
  | succ j ih =>
    rw [streamRef_succ', ← ih]
    congr 1
    simp [churnRef, stateStep, pow_succ', Nat.mul_assoc]

/-- A context whose churn byte number `j` is 1 and the next one 6. -/
def oneSixAt (j : Nat) : Prng := ⟨0, 2 ^ j * 2⟩

theorem streamByte_oneSixAt (j : Nat) : streamByte (oneSixAt j) j = 1 := by
  rw [← Nat.add_zero j, streamByte_add, oneSixAt, Nat.add_zero, streamRef_powTwo]
  rfl

theorem streamByte_oneSixAt_succ (j : Nat) : streamByte (oneSixAt j) (j + 1) = 6 := by
  rw [streamByte_add, oneSixAt, streamRef_powTwo]
  rfl

/-- The value of two integer draws of `bits` bits, the first one above the second (41_prng.md R123). -/
def twoDraws (p : Prng) (bits : Nat) : Nat :=
  streamNat p (byteCount bits) % 2 ^ bits * 2 ^ bits +
    streamNat (streamRef p (byteCount bits)) (byteCount bits) % 2 ^ bits

/-- The value of one integer draw of twice `bits` bits. -/
def doubleDraw (p : Prng) (bits : Nat) : Nat := streamNat p (byteCount (bits + bits)) % 2 ^ (bits + bits)

/-- Two draws of a width that takes at most half of its first byte draw one byte more than the draw of twice the width:
they end with the byte 6, it ends with the byte 1. -/
theorem doubleDraw_ne_twoDraws_of_le_four (k : Nat) {r : Nat} (hpos : 1 ≤ r) (hr : r ≤ 4) :
    doubleDraw (oneSixAt (2 * k)) (8 * k + r) ≠ twoDraws (oneSixAt (2 * k)) (8 * k + r) := by
  have hodd : doubleDraw (oneSixAt (2 * k)) (8 * k + r) % 2 = 1 := by
    rw [doubleDraw, show byteCount (8 * k + r + (8 * k + r)) = 2 * k + 1 by unfold byteCount; omega,
      streamNat_mod_mod_two _ _ (by omega), streamByte_oneSixAt]
    rfl
  have hlast : streamByte (streamRef (oneSixAt (2 * k)) (k + 1)) k = 6 := by
    rw [← streamByte_add, show k + 1 + k = 2 * k + 1 by omega, streamByte_oneSixAt_succ]
  have heven : twoDraws (oneSixAt (2 * k)) (8 * k + r) % 2 = 0 := by
    have htwo : 2 ∣ 2 ^ (8 * k + r) := dvd_pow_self 2 (by omega)
    rw [twoDraws, show byteCount (8 * k + r) = k + 1 by unfold byteCount; omega, Nat.add_mod,
      streamNat_mod_mod_two _ _ (by omega), hlast, Nat.mod_eq_zero_of_dvd (htwo.mul_left _)]
    rfl
  intro h
  omega

/-- Two draws of a width that takes more than half of its first byte drop the top bits of two bytes, the draw of twice
the width those of the first one only: bit `bits` is bit 0 of a byte 1 in the former, bit `r` of a byte 6 in the
latter. -/
theorem doubleDraw_ne_twoDraws_of_five_le (k : Nat) {r : Nat} (hr : 5 ≤ r) (hlt : r < 8) :
    doubleDraw (oneSixAt k) (8 * k + r) ≠ twoDraws (oneSixAt k) (8 * k + r) := by
  have htwo : 2 ∣ 2 ^ (8 * k + r) := dvd_pow_self 2 (by omega)
  have hdouble : doubleDraw (oneSixAt k) (8 * k + r) / 2 ^ (8 * k + r) % 2 = 0 := by
    rw [doubleDraw, show byteCount (8 * k + r + (8 * k + r)) = k + 1 + (k + 1) by unfold byteCount; omega, pow_add,
      Nat.mod_mul_right_div_self, Nat.mod_mod_of_dvd _ htwo, streamNat_div, streamByte_oneSixAt_succ]
    interval_cases r <;> simp <;> omega
  have hdraws : twoDraws (oneSixAt k) (8 * k + r) / 2 ^ (8 * k + r) % 2 = 1 := by
    rw [twoDraws, show byteCount (8 * k + r) = k + 1 by unfold byteCount; omega, Nat.mul_comm,
      Nat.mul_add_div (by positivity), Nat.div_eq_of_lt (Nat.mod_lt _ (by positivity)), Nat.add_zero,
      streamNat_mod_mod_two _ _ (by omega), streamByte_oneSixAt]
    rfl
  intro h
  rw [h, hdraws] at hdouble
  exact one_ne_zero hdouble

theorem exists_doubleDraw_ne_twoDraws {bits : Nat} (hbits : bits % 8 ≠ 0) :
    ∃ p, doubleDraw p bits ≠ twoDraws p bits := by
  rw [← Nat.div_add_mod bits 8]
  by_cases hr : bits % 8 ≤ 4
  · exact ⟨_, doubleDraw_ne_twoDraws_of_le_four _ (by omega) hr⟩
  · exact ⟨_, doubleDraw_ne_twoDraws_of_five_le _ (by omega) (by omega)⟩

/-- Settles O31: both sides draw the same stream where the same churns fit; and two integer draws, where they differ
from the one of twice the width. -/
theorem byteDrawsConcatenate : Obligations.ByteDrawsConcatenate := by
  refine ⟨fun w p a b => ?_, fun bits hbits => ?_⟩
  · have hone := (nextBytes_gives w p (a + b)).map fun r => (r.1, r.2.cells)
    have htwo := (nextBytes_gives w p a).bind
      (f := fun x => (nextBytes w x.1 b).map fun y => (y.1, x.2.cells ++ y.2.cells))
      fun _ => (nextBytes_gives w (streamRef p a) b).map _
    simp only [streamFits_add, streamRef_add, streamBytes_add] at hone
    exact hone.eq htwo
  · obtain ⟨p, hp⟩ := exists_doubleDraw_ne_twoDraws hbits
    exact ⟨p, _, _, _, _, _, _, nextInt_unbounded p (by omega), nextInt_unbounded _ (by omega),
      nextInt_unbounded p (by omega), hp⟩

end Sys2Proof.Machine
end

section
/-! The PRNG commands (41_prng.md R112, R117, R120): what each answers by the rules of the draws, carried through its
transaction; and PSEED as the only way out of the unseeded state. -/

namespace Sys2Proof.Machine

open Sys2Proof.Safety

/-- A command whose payload is there does to the machine what its answer says. -/
theorem exec_eq_after {i : Instr} {s : State} {rest : List Byte} (c : Cells Byte i.payloadLen)
    (hdin : s.din = c.cells ++ rest) {a : Arch} {r : Response} (h : answerOf i c s.arch = (a, r)) :
    exec i s = .next (after s rest a r) := by
  rw [exec_append i s c hdin, h]
  rfl

/-- Settles O32: the first check, then the seed by its rule. -/
theorem pseedResult : Obligations.PseedResult := by
  rintro n s payload rest hdin rfl
  have hseed := seed_gives s.arch.regWidth (beSum payload)
  have hexec {a r} := exec_eq_after (i := .pseed payload.length) ⟨payload, rfl⟩ hdin (a := a) (r := r)
  simp only [answerOf_pseed, beNat_eq_beSum] at hexec
  refine ⟨fun hf => hexec ?_, fun hf hfits => hexec ?_, fun hf hfits => hexec ?_⟩
  · rw [unlessFaulted_of_fault hf]
    rfl
  · rw [unlessFaulted_of_ok hf, hseed.orOverflow_some hfits]
    rfl
  · rw [unlessFaulted_of_ok hf, hseed.orOverflow_none hfits]
    rfl

/-- Settles O33: the two checks, then the byte draw by its rule. -/
theorem pnextbytesResult : Obligations.PnextbytesResult := by
  intro length s
  have hdraw (p : Prng) := nextBytes_gives s.arch.regWidth p length
  have hexec {a r} := exec_eq_after (i := .pnextbytes length) (s := s) ⟨[], rfl⟩ rfl (a := a) (r := r)
  simp only [answerOf_pnextbytes] at hexec
  refine ⟨fun hf => hexec ?_, fun hf hu => hexec ?_, fun p hf hu hfits => hexec ?_, fun p hf hu hfits => hexec ?_⟩
  · rw [unlessFaulted_of_fault hf]
    rfl
  · rw [unlessFaulted_of_ok hf, withUser_of_unseeded hu]
    rfl
  · rw [unlessFaulted_of_ok hf, withUser_of_seeded hu, (hdraw p).orOverflow_some hfits]
    rfl
  · rw [unlessFaulted_of_ok hf, withUser_of_seeded hu, (hdraw p).orOverflow_none hfits]
    rfl

/-- The mask of an integer draw of `8 * k + r` bits clears all but the low `r` bits of its first byte. -/
theorem bytesBE_streamNat_mod (p : Prng) (k : Nat) {r : Nat} (hr : r ≤ 8) :
    bytesBE (streamNat p (k + 1) % 2 ^ (8 * k + r)) (k + 1) =
      low8 ((streamByte p 0).toNat % 2 ^ r) :: (streamBytes (churnRef p) k).cells := by
  have hbyte : (streamByte p 0).toNat % 2 ^ r < 256 :=
    (Nat.mod_lt _ (by positivity)).trans_le (Nat.pow_le_pow_right Nat.two_pos hr)
  have hlow := streamNat_lt (churnRef p) k
  have hfirst : streamNat p (k + 1) = 256 ^ k * (streamByte p 0).toNat + streamNat (churnRef p) k := by
    rw [Nat.add_comm k 1, streamNat_add, streamNat_one, Nat.mul_comm]
    rfl
  have hmask : streamNat p (k + 1) % 2 ^ (8 * k + r) =
      beNat (low8 ((streamByte p 0).toNat % 2 ^ r) :: (streamBytes (churnRef p) k).cells) := by
    rw [hfirst, beNat_cons, low8_toNat, Nat.mod_eq_of_lt hbyte, Cells.length_cells, pow_add, pow_mul,
      show (2 : Nat) ^ 8 = 256 from rfl, Nat.mod_mul, Nat.mul_add_mod, Nat.mod_eq_of_lt hlow,
      Nat.mul_add_div (by positivity), Nat.div_eq_of_lt hlow, Nat.add_zero, Nat.add_comm, Nat.mul_comm]
    rfl
  rw [hmask]
  simpa using bytesBE_add_beNat 0 (low8 ((streamByte p 0).toNat % 2 ^ r) :: (streamBytes (churnRef p) k).cells)

/-- The response of PNEXTINT (41_prng.md R120). -/
theorem bytesBE_nextInt (p : Prng) {bits : Nat} (hbits : 1 ≤ bits) :
    bytesBE (streamNat p (byteCount bits) % 2 ^ bits) (byteCount bits) =
      (List.range ((bits + 7) / 8)).map fun k =>
        if k = 0 then BitVec.ofNat 8 ((streamByte p 0).toNat % 2 ^ (8 - (8 * ((bits + 7) / 8) - bits)))
        else streamByte p k := by
  obtain ⟨k, r, hpos, hr, rfl⟩ : ∃ k r, 1 ≤ r ∧ r ≤ 8 ∧ bits = 8 * k + r :=
    ⟨(bits - 1) / 8, (bits - 1) % 8 + 1, by omega, by omega, by omega⟩
  have hcount : (8 * k + r + 7) / 8 = k + 1 := by omega
  have hkept : 8 - (8 * (k + 1) - (8 * k + r)) = r := by omega
  rw [byteCount, hcount, hkept, bytesBE_streamNat_mod p k hr]
  simp [List.range_succ_eq_map, streamByte_succ, low8]

/-- Settles O34: the three checks, then the integer draw by its rule and its bytes. -/
theorem pnextintResult : Obligations.PnextintResult := by
  intro bits s
  have hdraw (p : Prng) := nextInt_gives s.arch.regWidth p (bits := bits)
  have hexec {a r} := exec_eq_after (i := .pnextint bits) (s := s) ⟨[], rfl⟩ rfl (a := a) (r := r)
  simp only [answerOf_pnextint] at hexec
  refine ⟨fun hf => hexec ?_, fun hf hu => hexec ?_, fun p hf hu h0 => hexec ?_,
    fun p hf hu hbits hfits => hexec ?_, fun p hf hu hbits hfits => hexec ?_⟩
  · rw [unlessFaulted_of_fault hf]
    rfl
  · rw [unlessFaulted_of_ok hf, withUser_of_unseeded hu]
    rfl
  · rw [unlessFaulted_of_ok hf, withUser_of_seeded hu, if_pos h0]
    rfl
  · rw [unlessFaulted_of_ok hf, withUser_of_seeded hu, if_neg (by omega), (hdraw p hbits).orOverflow_some hfits,
      ← bytesBE_nextInt p hbits]
    rfl
  · rw [unlessFaulted_of_ok hf, withUser_of_seeded hu, if_neg (by omega), (hdraw p hbits).orOverflow_none hfits]
    rfl

/-- A command that is not PSEED leaves U unseeded: a draw is refused, and no other command writes U. -/
theorem answerOf_unseeded {i : Instr} (hi : ¬ ∃ n, i = .pseed n) (c : Cells Byte i.payloadLen) {a : Arch}
    (ha : a.user = .unseeded) : (answerOf i c a).1.user = .unseeded := by
  have hdraw (f : Prng → Answer) : (unlessFaulted a (withUser a f)).1.user = .unseeded :=
    unlessFaulted_arch (P := fun b => b.user = .unseeded) ha (by rw [withUser_of_unseeded ha]; exact ha)
  cases i with
  | pseed n => exact absurd ⟨n, rfl⟩ hi
  | pnextint | pnextbytes => exact hdraw _
  | keyload | encrypt | decrypt | rdrk | sboxgen | isboxgen =>
    rw [(commandAnswer_answerOf _ c a).user_eq rfl]
    exact ha

/-- Settles O55: U seeded after the command is what no other command leaves. -/
theorem onlyPseedSeeds : Obligations.OnlyPseedSeeds := by
  intro i s t h hs ht
  obtain ⟨c, rest, -, rfl⟩ := exec_next h
  have hs' : s.arch.user = .unseeded := by
    cases hu : s.arch.user with
    | unseeded => rfl
    | seeded p => simp [Arch.uSeeded, hu] at hs
  obtain ⟨p, hp⟩ := (Arch.uSeeded_eq_true _).mp ht
  by_contra hi
  exact nomatch (answerOf_unseeded hi c hs').symm.trans hp

end Sys2Proof.Machine
end

section
/-! How far the registers grow (41_prng.md R124). The micro register is an iterate of the micro step; the state register
is an iterate of the standard map from the first state or from what the last reinjection assigned. -/

namespace Sys2Proof.Machine

open Sys2Proof.Safety

theorem oddStep_zero (c : Nat) : oddStep c 0 = 0 := oddStep_even c 0

/-- The bound of 40_collatz_step.md R105, which 0 meets too. -/
theorem iterate_oddStep_le_mul (c k n : Nat) : (oddStep c)^[k] n ≤ 2 * (c + 1) * (c + 1) ^ (k / 2) * n := by
  rcases n.eq_zero_or_pos with rfl | hn
  · rw [Function.iterate_fixed (oddStep_zero c)]
    exact Nat.zero_le _
  · exact iterate_oddStep_le c k hn

theorem streamRef_micro (p : Prng) (k : Nat) : (streamRef p k).micro = (oddStep 2)^[k] p.micro := by
  induction k with
  | zero => rfl
  | succ k ih => rw [Function.iterate_succ_apply', ← ih]; rfl

theorem streamRef_micro_le (p : Prng) (k : Nat) : (streamRef p k).micro ≤ microBound p k := by
  rw [streamRef_micro]
  exact (iterate_oddStep_le_mul 2 k p.micro).trans (Nat.mul_le_mul_left _ (le_max_left _ _))

/-- The largest value that `state` starts from: `max(S0, 18*M + 1 + 0x12345678)` (41_prng.md R124). -/
def startBound (p : Prng) : Nat := max p.state (18 * max p.micro 1 + 1 + 0x12345678)

theorem xor_le_add (x y : Nat) : x ^^^ y ≤ x + y := by
  induction x using Nat.strongRecOn generalizing y with
  | ind x ih =>
    rcases x.eq_zero_or_pos with rfl | hx
    · simp
    · have hhalf : (x ^^^ y) / 2 = x / 2 ^^^ y / 2 := Nat.xor_div_two
      have hbit : (x ^^^ y) % 2 = (x + y) % 2 := Nat.xor_mod_two_eq
      have := ih (x / 2) (by omega) (y / 2)
      omega

/-- What churn number `k` reinjects, by `x XOR y <= x + y` (41_prng.md R124). -/
theorem reinjected_le (p : Prng) (k : Nat) : reinjected (streamRef p k) ≤ 3 ^ (k / 2) * startBound p := by
  have hxor : reinjected (streamRef p k) ≤ (streamRef p k).micro * 3 + 1 + 0x12345678 := xor_le_add _ _
  have hmicro := streamRef_micro_le p k
  have hpow : 1 ≤ 3 ^ (k / 2) := Nat.one_le_pow _ _ (by decide)
  calc reinjected (streamRef p k) ≤ microBound p k * 3 + (1 + 0x12345678) := by omega
    _ ≤ 3 ^ (k / 2) * (18 * max p.micro 1 + 1 + 0x12345678) := by unfold microBound; nlinarith
    _ ≤ 3 ^ (k / 2) * startBound p := Nat.mul_le_mul_left _ (le_max_right _ _)

/-- After `k` churns `state` has made its last `i` steps by the standard map alone, from a value that `k - i` churns
bound. -/
theorem streamRef_state_eq_iterate (p : Prng) (k : Nat) :
    ∃ i j s, i + j = k ∧ s ≤ 3 ^ (j / 2) * startBound p ∧ (streamRef p k).state = (oddStep 1)^[i] s := by
  induction k with
  | zero => exact ⟨0, 0, p.state, rfl, by simp [startBound], rfl⟩
  | succ k ih =>
    obtain ⟨i, j, s, hk, hs, hstate⟩ := ih
    by_cases hone : stateStep (streamRef p k) = 1
    · refine ⟨0, k + 1, reinjected (streamRef p k), by omega, (reinjected_le p k).trans ?_, if_pos hone⟩
      exact Nat.mul_le_mul_right _ (Nat.pow_le_pow_right (by decide) (by omega))
    · refine ⟨i + 1, j, s, by omega, hs, (if_neg hone).trans ?_⟩
      rw [Function.iterate_succ_apply', ← hstate]
      rfl

theorem streamRef_state_le (p : Prng) (k : Nat) : (streamRef p k).state ≤ stateBound p k := by
  obtain ⟨i, j, s, rfl, hs, hstate⟩ := streamRef_state_eq_iterate p k
  calc (streamRef p (i + j)).state ≤ 4 * 2 ^ (i / 2) * s := hstate ▸ iterate_oddStep_le_mul 1 i s
    _ ≤ 4 * 3 ^ (i / 2) * (3 ^ (j / 2) * startBound p) := by gcongr; decide
    _ = 4 * 3 ^ (i / 2 + j / 2) * startBound p := by ring
    _ ≤ 4 * 3 ^ ((i + j) / 2) * startBound p := by
      gcongr
      · decide
      · omega

section Powers

variable {p : Prng} {k K b : Nat}

/-- The two bounds after at most `K` churns from registers below `2^b`. -/
theorem microBound_le (hmicro : p.micro < 2 ^ b) (hk : k ≤ K) : microBound p k ≤ 6 * 3 ^ (K / 2) * 2 ^ b := by
  have hmax : max p.micro 1 ≤ 2 ^ b := max_le hmicro.le Nat.one_le_two_pow
  unfold microBound
  gcongr
  decide

theorem stateBound_le (hstate : p.state < 2 ^ b) (hmicro : p.micro < 2 ^ b) (hk : k ≤ K) :
    stateBound p k ≤ 4 * 3 ^ (K / 2) * (18 * 2 ^ b + 1 + 0x12345678) := by
  have hmax : max p.micro 1 ≤ 2 ^ b := max_le hmicro.le Nat.one_le_two_pow
  have hstart : max p.state (18 * max p.micro 1 + 1 + 0x12345678) ≤ 18 * 2 ^ b + 1 + 0x12345678 := by omega
  unfold stateBound
  gcongr
  decide

end Powers

/-- The registers that fill a width overflow it: the state is odd, and three times as large overflows. -/
theorem not_churnFits_of_full {n : Nat} (h : 0 < n) : ¬ churnFits (.finite n h) ⟨2 ^ n - 1, 0⟩ := by
  rintro ⟨hfits, -⟩
  have htwo : 2 ≤ 2 ^ n := Nat.le_self_pow h.ne' 2
  have hodd : ¬ (2 ^ n - 1) % 2 = 0 := by
    have : 2 ∣ 2 ^ n := dvd_pow_self 2 h.ne'
    omega
  rw [stateStep, if_neg hodd, belowWidth_finite] at hfits
  dsimp only at hfits
  omega

/-- Settles O54: the bounds of the stream, at the two sizes as numbers; and the registers that fill a width. -/
theorem registerGrowth : Obligations.RegisterGrowth := by
  refine ⟨fun w p q k bytes hdraw => ?_, fun n h => ?_⟩
  · obtain ⟨-, hq⟩ := (nextBytes_gives w p k).some_iff.mp hdraw
    obtain ⟨rfl, -⟩ := Prod.mk.inj hq
    have hmicro := streamRef_micro_le p k
    have hstate := streamRef_state_le p k
    refine ⟨hmicro, hstate, fun hs hm hk => ⟨?_, ?_⟩, fun hs hm hk => ⟨?_, ?_⟩⟩
    · exact (hmicro.trans (microBound_le hm hk)).trans_lt (by decide +kernel)
    · exact (hstate.trans (stateBound_le hs hm hk)).trans_lt (by decide +kernel)
    · exact (hmicro.trans (microBound_le hm hk)).trans_lt (by decide +kernel)
    · exact (hstate.trans (stateBound_le hs hm hk)).trans_lt (by decide +kernel)
  · refine ⟨⟨2 ^ n - 1, 0⟩, Nat.sub_lt (by positivity) Nat.one_pos, by exact Nat.two_pow_pos n, ?_⟩
    exact (nextBytes_gives _ _ 1).eq_none fun hfits => not_churnFits_of_full h (hfits 0 Nat.one_pos)

end Sys2Proof.Machine
end

section
/-! Same seed, same stream (41_prng.md R121). With the cipher context left out of the state, a PRNG command answers what
it answers with it, and a cipher command changes nothing; so a sequence of commands without its cipher commands answers
what it answers with them. -/

namespace Sys2Proof.Machine

open Sys2Proof.Safety

/-- The same architectural state without its cipher context. -/
def Arch.dropKey (a : Arch) : Arch := { a with cipher := .noKey }

@[simp] theorem Arch.dropKey_regWidth (a : Arch) : a.dropKey.regWidth = a.regWidth := rfl
@[simp] theorem Arch.dropKey_user (a : Arch) : a.dropKey.user = a.user := rfl
@[simp] theorem Arch.dropKey_fault (a : Arch) : a.dropKey.fault = a.fault := rfl
@[simp] theorem Arch.dropKey_setUser (a : Arch) (p : Prng) : (a.setUser p).dropKey = a.dropKey.setUser p := rfl

/-- `y` is the answer `x` of the machine without its cipher context. -/
def DropsTo (x y : Answer) : Prop := y = (x.1.dropKey, x.2)

namespace DropsTo

variable {a : Arch} {x y : Answer}

theorem raise (e : Status) : DropsTo (raise e a) (raise e a.dropKey) := rfl

theorem overflowUser : DropsTo (overflowUser a) (overflowUser a.dropKey) := rfl

theorem respond (dout : List Byte) : DropsTo (respond a dout) (respond a.dropKey dout) := rfl

theorem unlessFaulted (h : DropsTo x y) : DropsTo (unlessFaulted a x) (unlessFaulted a.dropKey y) := by
  cases hf : a.fault
  · simpa [hf] using h
  · simpa [hf] using raise .faulted

theorem withUser {f g : Prng → Answer} (h : ∀ p, DropsTo (f p) (g p)) :
    DropsTo (withUser a f) (withUser a.dropKey g) := by
  cases hu : a.user with
  | unseeded => simpa [hu] using raise .notSeeded
  | seeded p => simpa [hu] using h p

theorem orOverflow {β : Type} {u : Option β} {ov ov' : Answer} {f g : β → Answer} (hov : DropsTo ov ov')
    (h : ∀ b, DropsTo (f b) (g b)) : DropsTo (orOverflow u ov f) (orOverflow u ov' g) := by
  cases u with
  | none => exact hov
  | some b => exact h b

end DropsTo

/-- No PRNG command reads or writes the cipher context (10_state.md R22). -/
theorem answerOf_dropsTo {i : Instr} (hi : isPrngCommand i = true) (c : Cells Byte i.payloadLen) (a : Arch) :
    DropsTo (answerOf i c a) (answerOf i c a.dropKey) := by
  cases i with
  | pseed n =>
    rw [answerOf_pseed, answerOf_pseed]
    exact .unlessFaulted (.orOverflow .overflowUser fun p => .respond (a := a.setUser p) [])
  | pnextint bits =>
    rw [answerOf_pnextint, answerOf_pnextint]
    refine .unlessFaulted (.withUser fun p => ?_)
    split
    · exact .raise .illegalOperand
    · exact .orOverflow .overflowUser fun r => .respond (a := a.setUser r.1) _
  | pnextbytes length =>
    rw [answerOf_pnextbytes, answerOf_pnextbytes]
    exact .unlessFaulted (.withUser fun p => .orOverflow .overflowUser fun r => .respond (a := a.setUser r.1) _)
  | keyload | encrypt | decrypt | rdrk | sboxgen | isboxgen => cases hi

/-- With unbounded registers a cipher command changes the cipher context at most. -/
theorem CommandAnswer.dropKey_eq {i : Instr} {a : Arch} {x : Answer} (h : CommandAnswer i a x)
    (hi : isPrngCommand i = false) (hw : a.regWidth = .unbounded) : x.1.dropKey = a.dropKey := by
  cases h with
  | error | load | read => rfl
  | overflow _ hfin => exact absurd hw hfin
  | overflowUser hprng | advance _ _ hprng => exact nomatch hi.symm.trans hprng

/-- One command with its payload answers what its meaning says. -/
theorem answer_eq_some_iff {a a' : Arch} {i : Instr} {bs : List Byte} {r : Response} :
    answer a (i, bs) = some (a', r) ↔
      ∃ c : Cells Byte i.payloadLen, bs = c.cells ∧ answerOf i c a = (a', r) := by
  constructor
  · intro h
    unfold answer at h
    split at h
    · next hexec =>
      obtain ⟨c, rest, hdin, hnext⟩ := exec_next hexec
      obtain ⟨ha, -, rfl, hr⟩ : _ ∧ _ ∧ [] = rest ∧ _ := by simpa using hnext
      obtain ⟨rfl, rfl⟩ := Prod.mk.inj (Option.some.inj h)
      exact ⟨c, hdin.trans (List.append_nil _), Prod.ext ha.symm hr.symm⟩
    · cases h
  · rintro ⟨c, rfl, hans⟩
    simp [answer, exec_append i ⟨a, [], c.cells, []⟩ c (List.append_nil _).symm, hans]

theorem answers_cons (a : Arch) (c : Instr × List Byte) (cs : List (Instr × List Byte)) :
    answers a (c :: cs) = (answer a c).bind fun x => (answers x.1 cs).map fun y => (y.1, (c.1, x.2) :: y.2) := by
  rw [answers]
  cases answer a c with
  | none => rfl
  | some x => cases h : answers x.1 cs <;> simp [h]

theorem answers_cons_eq_some_iff {a a' : Arch} {c : Instr × List Byte} {cs : List (Instr × List Byte)}
    {rs : List (Instr × Response)} :
    answers a (c :: cs) = some (a', rs) ↔ ∃ b r rs', answer a c = some (b, r) ∧
      answers b cs = some (a', rs') ∧ (c.1, r) :: rs' = rs := by
  simp [answers_cons, Option.bind_eq_some_iff]

/-- A sequence without its cipher commands, from the state without its cipher context, answers what it answers with
them. -/
theorem answers_filter_prng {a a' : Arch} {cs : List (Instr × List Byte)} {rs : List (Instr × Response)}
    (hw : a.regWidth = .unbounded) (h : answers a cs = some (a', rs)) :
    answers a.dropKey (cs.filter fun c => isPrngCommand c.1) =
      some (a'.dropKey, rs.filter fun r => isPrngCommand r.1) := by
  induction cs generalizing a rs with
  | nil => cases h; rfl
  | cons c cs ih =>
    obtain ⟨i, bs⟩ := c
    obtain ⟨b, r, rs', hc, hcs, rfl⟩ := answers_cons_eq_some_iff.mp h
    obtain ⟨payload, hbs, hans⟩ := answer_eq_some_iff.mp hc
    have hb : CommandAnswer i a (b, r) := hans ▸ commandAnswer_answerOf i payload a
    have hrest := ih (hb.regWidth_eq.trans hw) hcs
    cases hi : isPrngCommand i with
    | true =>
      have hdrop : answerOf i payload a.dropKey = (b.dropKey, r) := by
        rw [answerOf_dropsTo hi payload a, hans]
      simp only [List.filter_cons, hi, if_true]
      exact answers_cons_eq_some_iff.mpr ⟨_, _, _, answer_eq_some_iff.mpr ⟨payload, hbs, hdrop⟩, hrest, rfl⟩
    | false =>
      rw [hb.dropKey_eq hi hw] at hrest
      simpa [List.filter_cons, hi] using hrest

/-- After PSEED with unbounded registers the state, but for its cipher context, is a function of the seed value. -/
theorem dropKey_of_answer_pseed {a b : Arch} {n : Nat} {bs : List Byte} {r : Response} (hw : a.regWidth = .unbounded)
    (hf : a.fault = false) (h : answer a (.pseed n, bs) = some (b, r)) :
    b.dropKey = (Arch.reset .unbounded).setUser (seedRef (beSum bs)) := by
  obtain ⟨c, rfl, hans⟩ := answer_eq_some_iff.mp h
  rw [answerOf_pseed, unlessFaulted_of_ok hf, hw,
    (seed_gives .unbounded _).orOverflow_some (seedFits_unbounded _), beNat_eq_beSum] at hans
  obtain ⟨rfl, -⟩ := Prod.mk.inj hans
  rw [Arch.dropKey_setUser, Arch.dropKey, hw, hf]
  rfl

/-- Settles O35: both sequences answer what the PRNG commands they share answer after the same seed. -/
theorem sameSeedSameStream : Obligations.SameSeedSameStream := by
  intro a b a' b' n m x y cs ds rs ts haw hbw haf hbf hseed hfilter ha hb
  obtain ⟨a₁, ra, rs', hca, hcs, rfl⟩ := answers_cons_eq_some_iff.mp ha
  obtain ⟨b₁, rb, ts', hcb, hds, rfl⟩ := answers_cons_eq_some_iff.mp hb
  have hda := dropKey_of_answer_pseed haw haf hca
  have hdb := dropKey_of_answer_pseed hbw hbf hcb
  have hcs' := answers_filter_prng (a := a₁) (congrArg Arch.regWidth hda) hcs
  have hds' := answers_filter_prng (a := b₁) (congrArg Arch.regWidth hdb) hds
  rw [hda, hseed, hfilter, ← hdb, hds'] at hcs'
  obtain ⟨harch, hresp⟩ := Prod.mk.inj (Option.some.inj hcs')
  exact ⟨(congrArg Arch.user harch).symm, hresp.symm⟩

end Sys2Proof.Machine
end

section
/-! The key schedule and its two commands (42_key_schedule.md): the eleven round keys are successive blocks of one churn
stream, which is a function of the key's big-endian value. -/

namespace Sys2Proof.Machine

open Sys2Proof.Safety

/-- The first `m` blocks of 16 churn bytes from `p`. -/
def streamBlocks (p : Prng) (m : Nat) : Cells Block m := Cells.ofFn fun i => streamBytes (streamRef p (16 * i.val)) 16

theorem read_streamBytes (p : Prng) {m : Nat} (k : Fin m) : (streamBytes p m).read k = streamByte p k.val := by
  simp [Cells.read_eq_getElem]

theorem read_streamBlocks (p : Prng) {m : Nat} (i : Fin m) (k : Fin 16) :
    ((streamBlocks p m).read i).read k = streamByte p (16 * i.val + k.val) := by
  rw [streamBlocks, Cells.read_ofFn, read_streamBytes, ← streamByte_add]

/-- The first block, then the blocks of the context 16 churns later. -/
theorem streamBlocks_succ (p : Prng) (m : Nat) :
    streamBlocks p (m + 1) = Cells.cons (streamBytes p 16) (streamBlocks (streamRef p 16) m) := by
  refine Cells.ext_read fun i => ?_
  cases i using Fin.cases with
  | zero => exact Cells.read_ofFn _ 0
  | succ i =>
    rw [Cells.read_cons_succ, streamBlocks, streamBlocks, Cells.read_ofFn, Cells.read_ofFn, ← streamRef_add,
      Fin.val_succ, Nat.mul_succ, Nat.add_comm]

theorem nextBlocks_gives (w : RegWidth) (p : Prng) (m : Nat) :
    Gives (nextBlocks w p m) (streamFits w p (16 * m)) (streamRef p (16 * m), streamBlocks p m) := by
  induction m generalizing p with
  | zero => exact Gives.pure.congr_fits (iff_of_true trivial (streamFits_zero w p))
  | succ m ih =>
    rw [Nat.mul_succ, Nat.add_comm (16 * m), streamRef_add, streamBlocks_succ]
    exact .congr_fits ((nextBytes_gives w p 16).bind fun _ => (ih (streamRef p 16)).bind fun _ => .pure)
      (by rw [and_true, streamFits_add])

/-- The key schedule by its rule (42_key_schedule.md R131). -/
theorem expandKey_gives (w : RegWidth) (key : List Byte) :
    Gives (expandKey w key) (scheduleFits w key) (streamBlocks (seedRef (beSum key)) 11) := by
  rw [expandKey, beNat_eq_beSum]
  exact .congr_fits ((seed_gives w _).bind fun _ => (nextBlocks_gives w _ 11).bind fun _ => .pure)
    (by rw [and_true]; rfl)

/-- Settles O36: the two checks, then the key schedule by its rule. -/
theorem keyloadResult : Obligations.KeyloadResult := by
  rintro n s key rest hdin rfl
  have hkeys := expandKey_gives s.arch.regWidth key
  have hexec {a r} := exec_eq_after (i := .keyload key.length) ⟨key, rfl⟩ hdin (a := a) (r := r)
  simp only [answerOf_keyload, legalKeyLen_iff] at hexec
  refine ⟨fun hf => hexec ?_, fun hf hlen => hexec ?_,
    fun hf hlen hfits => ⟨_, read_streamBlocks (seedRef (beSum key)), hexec ?_⟩, fun hf hlen hfits => hexec ?_⟩
  · rw [unlessFaulted_of_fault hf]
    rfl
  · rw [unlessFaulted_of_ok hf, if_neg hlen]
    rfl
  · rw [unlessFaulted_of_ok hf, if_pos hlen, hkeys.orOverflow_some hfits]
    rfl
  · rw [unlessFaulted_of_ok hf, if_pos hlen, hkeys.orOverflow_none hfits]
    rfl

theorem expandKey_congr (w : RegWidth) {x y : List Byte} (h : beSum x = beSum y) : expandKey w x = expandKey w y := by
  rw [expandKey, expandKey, beNat_eq_beSum, beNat_eq_beSum, h]

/-- Leading zero bytes do not change the value (00_scope.md R13). -/
theorem beSum_replicate_zero_append (z : Nat) (bs : List Byte) : beSum (List.replicate z 0 ++ bs) = beSum bs := by
  induction z with
  | zero => rfl
  | succ z ih =>
    rw [List.replicate_succ, List.cons_append, beSum_cons, ih]
    simp

/-- Settles O37: the key schedule seeds its context with the value alone, which leading zero bytes keep. -/
theorem roundKeysOnlyThroughValue : Obligations.RoundKeysOnlyThroughValue :=
  ⟨fun w _ _ => expandKey_congr w, fun w z x => expandKey_congr w (beSum_replicate_zero_append z x)⟩

theorem keyByte_eq_toNat_read (rk : RoundKeys) (i : Fin 11) (k : Fin 16) :
    keyByte rk i.val k.val = ((rk.read i).read k).toNat := by
  simp [keyByte, Cells.read_eq_getElem]

/-- The bytes of a round key, in index order. -/
theorem map_keyByte_eq_cells (rk : RoundKeys) (i : Fin 11) :
    (List.range 16).map (fun j => BitVec.ofNat 8 (keyByte rk i.val j)) = (rk.read i).cells := by
  refine List.ext_getElem (by simp) fun j hj _ => ?_
  have hj16 : j < 16 := by simpa using hj
  rw [List.getElem_map, List.getElem_range, keyByte_eq_toNat_read rk i ⟨j, hj16⟩, BitVec.ofNat_toNat,
    BitVec.setWidth_eq]
  rfl

/-- Settles O38: the three checks, then the bytes of the round key. -/
theorem rdrkResult : Obligations.RdrkResult := by
  intro i s
  have hexec {a r} := exec_eq_after (i := .rdrk i) (s := s) ⟨[], rfl⟩ rfl (a := a) (r := r)
  simp only [answerOf_rdrk] at hexec
  refine ⟨fun hf => hexec ?_, fun hf hc => hexec ?_, fun k hf hc hi => hexec ?_, fun k hf hc hi => hexec ?_⟩
  · rw [unlessFaulted_of_fault hf]
    rfl
  · rw [unlessFaulted_of_ok hf, withKey_of_noKey hc]
    rfl
  · rw [unlessFaulted_of_ok hf, withKey_of_loaded hc, dif_neg (by omega)]
    rfl
  · rw [unlessFaulted_of_ok hf, withKey_of_loaded hc, dif_pos (Nat.lt_succ_of_le hi), ← map_keyByte_eq_cells]
    rfl

end Sys2Proof.Machine
end

section
/-! The S-box generator (43_sbox.md R140 to R143): the shuffle of cells as the shuffle of a function, four churns a
draw; the derived table is a permutation, which its inverse table undoes. -/

namespace Sys2Proof.Machine

open Sys2Proof.Safety

section Seed

variable (k : Block) (r : Nat)

theorem sboxSeed_eq_sboxSeedRef : sboxSeed k r = sboxSeedRef k r := by
  rw [sboxSeed, beNat_eq_beSum]
  rfl

theorem beSum_block_lt : beSum k.cells < 2 ^ 128 := by
  simpa using beSum_lt k.cells

end Seed

/-- Settles O40: both terms of the XOR are below 2^128, and the product is below 2^33. -/
theorem sboxSeedRule : Obligations.SboxSeedRule := by
  refine ⟨sboxSeed_eq_sboxSeedRef, fun k r hr => ?_, rfl⟩
  have hproduct : r * 0x31415926 < 2 ^ 33 := by omega
  rw [sboxSeed_eq_sboxSeedRef, sboxSeedRef]
  constructor
  · exact Nat.xor_lt_two_pow (beSum_block_lt k) (hproduct.trans (by decide))
  · rw [Nat.xor_div_two_pow, Nat.div_eq_of_lt hproduct, Nat.xor_zero]

section Tables

/-- The table whose entries are the values of `f`. -/
def tableOf (f : Nat → Nat) : SBox := Cells.ofFn fun x => BitVec.ofNat 8 (f x.val)

theorem read_tableOf (f : Nat → Nat) (x : Fin 256) : (tableOf f).read x = BitVec.ofNat 8 (f x.val) :=
  Cells.read_ofFn _ x

theorem cells_tableOf (f : Nat → Nat) : (tableOf f).cells = (List.range 256).map fun x => BitVec.ofNat 8 (f x) := by
  rw [← List.map_coe_finRange_eq_range, List.map_map]
  rfl

theorem tableOf_id : tableOf id = SBox.identity := rfl

/-- Exchanging two cells is exchanging two values. -/
theorem swap_tableOf (f : Nat → Nat) (i j : Fin 256) : (tableOf f).swap i j = tableOf (swapRef f i.val j.val) := by
  refine Cells.ext_read fun x => ?_
  simp only [Cells.read_swap, read_tableOf, swapRef, ← Fin.ext_iff]
  split_ifs with hj hi
  · rw [← hi, ← hj]
  · rfl
  · rfl
  · rfl

theorem at_eq_read (t : SBox) (x : Byte) : t.at x = t.read x.toFin := rfl

variable {f : Nat → Nat}

theorem toNat_read_tableOf (hf : ∀ x < 256, f x < 256) (x : Fin 256) : ((tableOf f).read x).toNat = f x.val := by
  rw [read_tableOf, BitVec.toNat_ofNat, Nat.mod_eq_of_lt (hf x.val x.isLt)]

theorem bijective_at_tableOf (hf : ∀ x < 256, f x < 256) (hinj : Function.Injective f) :
    Function.Bijective (tableOf f).at := by
  refine Finite.injective_iff_bijective.mp fun x y hxy => BitVec.eq_of_toNat_eq (hinj ?_)
  have htoNat (z : Byte) : ((tableOf f).at z).toNat = f z.toNat := toNat_read_tableOf hf z.toFin
  rw [← htoNat, ← htoNat, hxy]

end Tables

section Shuffle

theorem drawRef_eq_streamNat (p : Prng) (d : Nat) : drawRef p d = streamNat (streamRef p (4 * d)) 4 := by
  have hfirst : streamByte p (4 * d) = streamByte (streamRef p (4 * d)) 0 := streamByte_add p (4 * d) 0
  simp [drawRef, hfirst, streamByte_add, streamNat, beNat, List.range_succ]
  ring

/-- A draw of the shuffle: four churns, of which the mask clears nothing (43_sbox.md R141, 41_prng.md R118). -/
theorem nextInt_drawBits_gives (w : RegWidth) (p : Prng) (d : Nat) :
    Gives (nextInt w (streamRef p (4 * d)) Config.drawBits) (streamFits w (streamRef p (4 * d)) 4)
      (streamRef p (4 * (d + 1)), drawRef p d) := by
  have hdraw : streamNat (streamRef p (4 * d)) 4 % 2 ^ 32 = drawRef p d := by
    rw [drawRef_eq_streamNat]
    exact Nat.mod_eq_of_lt (streamNat_lt _ 4)
  rw [← hdraw, Nat.mul_succ, streamRef_add]
  exact nextInt_gives w _ (bits := 32) (by decide)

/-- The loop at index `i`, which is iteration number `d`, ends with the table of the whole shuffle (43_sbox.md R141). -/
theorem shuffle_gives (w : RegWidth) (p : Prng) {i d : Nat} (h : i < 256) (hd : d + i = 255) :
    Gives (shuffle w i h (streamRef p (4 * d)) (tableOf (shuffleRef p d)))
      (streamFits w (streamRef p (4 * d)) (4 * i)) (streamRef p 1020, tableOf (shuffleRef p 255)) := by
  induction i generalizing d with
  | zero =>
    obtain rfl : d = 255 := hd
    exact Gives.pure.congr_fits (iff_of_true trivial (streamFits_zero w _))
  | succ i ih =>
    have hindex : i + 1 = 255 - d := by omega
    have hmodulus : i + 2 = 256 - d := by omega
    refine .congr_fits ((nextInt_drawBits_gives w p d).bind fun _ => ?_)
      (by rw [Nat.mul_succ, Nat.add_comm (4 * i), streamFits_add, ← streamRef_add, ← Nat.mul_succ])
    dsimp only
    rw [swap_tableOf]
    simp only [hindex, hmodulus]
    exact ih _ (by omega)

theorem swapRef_lt {t : Nat → Nat} {i j n : Nat} (ht : ∀ x < n, t x < n) (hi : i < n) (hj : j < n) :
    ∀ x < n, swapRef t i j x < n := by
  intro x hx
  unfold swapRef
  split_ifs
  · exact ht j hj
  · exact ht i hi
  · exact ht x hx

/-- Every value of the shuffle is a byte. -/
theorem shuffleRef_lt (p : Prng) {d : Nat} (hd : d ≤ 255) : ∀ x < 256, shuffleRef p d x < 256 := by
  induction d with
  | zero => exact fun _ hx => hx
  | succ d ih =>
    have hmod : drawRef p d % (256 - d) < 256 - d := Nat.mod_lt _ (by omega)
    exact swapRef_lt (ih (by omega)) (by omega) (by omega)

end Shuffle

section Derive

variable (k : Block) (r : Nat)

theorem sboxRef_lt : ∀ x < 256, sboxRef k r x < 256 := shuffleRef_lt _ le_rfl

/-- The forward S-box by its rule (43_sbox.md R141). -/
theorem deriveSbox_gives (w : RegWidth) : Gives (deriveSbox w k r) (sboxFits w k r) (tableOf (sboxRef k r)) := by
  have hshuffle := shuffle_gives w (seedRef (sboxSeedRef k r)) (i := 255) (d := 0) (by decide) rfl
  rw [deriveSbox, sboxSeed_eq_sboxSeedRef, ← tableOf_id]
  exact .congr_fits ((seed_gives w _).bind fun _ => hshuffle.bind fun _ => .pure) (by rw [and_true]; rfl)

/-- The table of every S-box is a permutation (43_sbox.md R142). -/
theorem bijective_at_tableOf_sboxRef : Function.Bijective (tableOf (sboxRef k r)).at :=
  bijective_at_tableOf (sboxRef_lt k r) (sboxRef_injective k r)

end Derive

/-- Settles O41: the loop of the shuffle by its rule, from the seed of R140. -/
theorem sboxIsFisherYates : Obligations.SboxIsFisherYates := fun w k r =>
  ⟨fun h => ⟨_, (deriveSbox_gives k r w).eq_some h, toNat_read_tableOf (sboxRef_lt k r)⟩,
    (deriveSbox_gives k r w).eq_none⟩

/-- Settles O42: exchanging two entries keeps the shuffled table injective, and its values are bytes. -/
theorem sboxIsPermutation : Obligations.SboxIsPermutation := by
  intro w k r t h
  obtain ⟨-, rfl⟩ := (deriveSbox_gives k r w).some_iff.mp h
  exact bijective_at_tableOf_sboxRef k r

section Inverse

variable {t : SBox}

/-- The loop of `invertSbox` over `xs` leaves `x` at the entry of every `x` it has met: with an injective table no later
write meets the same cell. -/
theorem at_invertFrom (ht : Function.Injective t.at) (ti : SBox) (x : Byte) {xs : List (Fin 256)}
    (hx : x.toFin ∈ xs) : (invertFrom t ti xs).at (t.at x) = x := by
  induction xs using List.reverseRecOn with
  | nil => cases hx
  | append_singleton xs y ih =>
    have hlast : invertFrom t ti (xs ++ [y]) = (invertFrom t ti xs).write (t.read y).toFin (BitVec.ofNat 8 y.val) := by
      simp [invertFrom]
    rw [hlast, at_eq_read, Cells.read_write]
    split
    · next hcell =>
      have hxy : BitVec.ofFin y = x := ht (BitVec.eq_of_toFin_eq hcell)
      simp [← hxy]
    · next hcell =>
      refine ih ((List.mem_append.mp hx).resolve_right fun hy => hcell ?_)
      rw [← List.mem_singleton.mp hy]
      rfl

theorem leftInverse_at_invertSbox (ht : Function.Injective t.at) : Function.LeftInverse (invertSbox t).at t.at :=
  fun x => at_invertFrom ht _ x (List.mem_finRange _)

end Inverse

/-- Settles O43: the inverse table undoes an injective table, and a left inverse of a surjection is a right inverse. -/
theorem inverseSboxUndoes : Obligations.InverseSboxUndoes := fun _ ht x =>
  ⟨leftInverse_at_invertSbox ht.injective x,
    (leftInverse_at_invertSbox ht.injective).rightInverse_of_surjective ht.surjective x⟩

end Sys2Proof.Machine
end

section
/-! SBOXGEN and ISBOXGEN (43_sbox.md R144, R145): the checks and the S-box are those of one answer, which the two
commands complete with the S-box and with its inverse. -/

namespace Sys2Proof.Machine

open Sys2Proof.Safety

/-- The answer of a command that reads out a table made of the S-box of round `r`. -/
def tableAnswer (r : Nat) (dout : SBox → List Byte) (a : Arch) : Answer :=
  unlessFaulted a (withKey a fun rk =>
    if h : 1 ≤ r ∧ r < 11 then
      orOverflow (roundSbox a.regWidth rk ⟨r, h.2⟩) (overflow a) fun t => respond a (dout t)
    else raise .illegalOperand a)

theorem answerOf_sboxgen_eq_tableAnswer (r : Nat) (c : Cells Byte (Instr.sboxgen r).payloadLen) (a : Arch) :
    answerOf (.sboxgen r) c a = tableAnswer r (fun t => t.cells) a := answerOf_sboxgen a r c

theorem answerOf_isboxgen_eq_tableAnswer (r : Nat) (c : Cells Byte (Instr.isboxgen r).payloadLen) (a : Arch) :
    answerOf (.isboxgen r) c a = tableAnswer r (fun t => (invertSbox t).cells) a := answerOf_isboxgen a r c

namespace tableAnswer

variable {r : Nat} {dout : SBox → List Byte} {a : Arch} {k : KeyCtx}

theorem of_fault (hf : a.fault = true) : tableAnswer r dout a = raise .faulted a := unlessFaulted_of_fault hf

theorem of_noKey (hf : a.fault = false) (hc : a.cipher = .noKey) : tableAnswer r dout a = raise .noKey a := by
  rw [tableAnswer, unlessFaulted_of_ok hf, withKey_of_noKey hc]

theorem of_illegal (hf : a.fault = false) (hc : a.cipher = .loaded k) (hr : r < 1 ∨ 10 < r) :
    tableAnswer r dout a = raise .illegalOperand a := by
  rw [tableAnswer, unlessFaulted_of_ok hf, withKey_of_loaded hc, dif_neg (by omega)]

theorem of_legal (hf : a.fault = false) (hc : a.cipher = .loaded k) (hr : 1 ≤ r) (h : r < 11) :
    tableAnswer r dout a =
      orOverflow (deriveSbox a.regWidth (k.rk.read ⟨r, h⟩) r) (overflow a) fun t => respond a (dout t) := by
  rw [tableAnswer, unlessFaulted_of_ok hf, withKey_of_loaded hc, dif_pos ⟨hr, h⟩]
  rfl

theorem of_fits (hf : a.fault = false) (hc : a.cipher = .loaded k) (hr : 1 ≤ r) (h : r < 11)
    (hfits : sboxFits a.regWidth (k.rk.read ⟨r, h⟩) r) :
    tableAnswer r dout a = respond a (dout (tableOf (sboxRef (k.rk.read ⟨r, h⟩) r))) := by
  rw [of_legal hf hc hr h, (deriveSbox_gives _ _ _).orOverflow_some hfits]

theorem of_not_fits (hf : a.fault = false) (hc : a.cipher = .loaded k) (hr : 1 ≤ r) (h : r < 11)
    (hfits : ¬ sboxFits a.regWidth (k.rk.read ⟨r, h⟩) r) : tableAnswer r dout a = overflow a := by
  rw [of_legal hf hc hr h, (deriveSbox_gives _ _ _).orOverflow_none hfits]

end tableAnswer

/-- Settles O44: each branch of the answer, read out as the cells of the S-box. -/
theorem sboxgenResult : Obligations.SboxgenResult := by
  intro r s
  have hexec {a x} := exec_eq_after (i := .sboxgen r) (s := s) ⟨[], rfl⟩ rfl (a := a) (r := x)
  rw [answerOf_sboxgen_eq_tableAnswer] at hexec
  refine ⟨fun hf => hexec (tableAnswer.of_fault hf), fun hf hc => hexec (tableAnswer.of_noKey hf hc),
    fun k hf hc hr => hexec (tableAnswer.of_illegal hf hc hr), fun k h hf hc hr hfits => ?_,
    fun k h hf hc hr hfits => hexec (tableAnswer.of_not_fits hf hc hr h hfits)⟩
  rw [← cells_tableOf]
  exact hexec (tableAnswer.of_fits hf hc hr h hfits)

theorem byteAt_cells (t : SBox) (b : Byte) : byteAt t.cells b.toNat = (t.at b).toNat := by
  rw [byteAt, List.getD_eq_getElem _ _ (by simpa using b.isLt)]
  rfl

/-- The inverse table sends each value of a permutation back to its index. -/
theorem byteAt_invertSbox_tableOf {f : Nat → Nat} (hf : ∀ x < 256, f x < 256) (hinj : Function.Injective f) :
    ∀ x < 256, byteAt (invertSbox (tableOf f)).cells (f x) = x := by
  intro x hx
  have hentry : f x = ((tableOf f).at (BitVec.ofFin ⟨x, hx⟩)).toNat := (toNat_read_tableOf hf ⟨x, hx⟩).symm
  rw [hentry, byteAt_cells, leftInverse_at_invertSbox (bijective_at_tableOf hf hinj).injective]
  rfl

/-- Settles O45: each branch of the answer, read out as the cells of the inverse table. -/
theorem isboxgenResult : Obligations.IsboxgenResult := by
  intro r s
  have hexec {a x} := exec_eq_after (i := .isboxgen r) (s := s) ⟨[], rfl⟩ rfl (a := a) (r := x)
  rw [answerOf_isboxgen_eq_tableAnswer] at hexec
  exact ⟨fun hf => hexec (tableAnswer.of_fault hf), fun hf hc => hexec (tableAnswer.of_noKey hf hc),
    fun k hf hc hr => hexec (tableAnswer.of_illegal hf hc hr),
    fun k h hf hc hr hfits => ⟨_, (invertSbox (tableOf (sboxRef (k.rk.read ⟨r, h⟩) r))).size,
      byteAt_invertSbox_tableOf (sboxRef_lt _ _) (sboxRef_injective _ _),
      hexec (tableAnswer.of_fits hf hc hr h hfits)⟩,
    fun k h hf hc hr hfits => hexec (tableAnswer.of_not_fits hf hc hr h hfits)⟩

end Sys2Proof.Machine
end

section
/-! The stages of the pipeline (44_round_pipeline.md R151 to R155): what each does to one byte, and that each is undone
by its inverse. -/

namespace Sys2Proof.Machine

open Sys2Proof.Safety

section Bytes

variable (k b : Block) (t : SBox) (i : Fin 16)

@[simp] theorem read_addRoundKey : (addRoundKey k b).read i = b.read i ^^^ k.read i := Cells.read_ofFn _ i

@[simp] theorem read_subBytes : (subBytes t b).read i = t.at (b.read i) := Cells.read_ofFn _ i

@[simp] theorem read_invSubBytes : (invSubBytes t b).read i = t.at (b.read i) := Cells.read_ofFn _ i

@[simp] theorem read_shiftRows : (shiftRows b).read i = b.read (shiftSource i) := Cells.read_ofFn _ i

@[simp] theorem read_invShiftRows : (invShiftRows b).read i = b.read (invShiftSource i) := Cells.read_ofFn _ i

@[simp] theorem shiftSource_invShiftSource : shiftSource (invShiftSource i) = i := by
  decide +revert

@[simp] theorem invShiftSource_shiftSource : invShiftSource (shiftSource i) = i := by
  decide +revert

theorem shiftSource_val : (shiftSource i).val = rowSource i.val := rfl

theorem invShiftSource_val : (invShiftSource i).val = invRowSource i.val := by
  decide +revert

end Bytes

section Inverses

variable (k b : Block) {t : SBox}

theorem addRoundKey_addRoundKey : addRoundKey k (addRoundKey k b) = b :=
  Cells.ext_read fun i => by simp

theorem invShiftRows_shiftRows : invShiftRows (shiftRows b) = b := Cells.ext_read fun i => by simp

theorem shiftRows_invShiftRows : shiftRows (invShiftRows b) = b := Cells.ext_read fun i => by simp

theorem invSubBytes_subBytes (ht : Function.Bijective t.at) : invSubBytes (invertSbox t) (subBytes t b) = b :=
  Cells.ext_read fun i => by simp [(inverseSboxUndoes t ht _).1]

theorem subBytes_invSubBytes (ht : Function.Bijective t.at) : subBytes t (invSubBytes (invertSbox t) b) = b :=
  Cells.ext_read fun i => by simp [(inverseSboxUndoes t ht _).2]

end Inverses

/-- Settles O46: each stage undone byte by byte. -/
theorem stagesHaveInverses : Obligations.StagesHaveInverses :=
  ⟨addRoundKey_addRoundKey, fun b => ⟨invShiftRows_shiftRows b, shiftRows_invShiftRows b⟩,
    fun _ b => invSubBytes_subBytes b⟩

theorem byteAt_cells_eq_toNat_read {n : Nat} (c : Cells Byte n) (i : Fin n) :
    byteAt c.cells i.val = (c.read i).toNat := by
  simp [byteAt, Cells.read_eq_getElem]

theorem byteAt_shiftRows (b : Block) (i : Fin 16) :
    byteAt (shiftRows b).cells i.val = byteAt b.cells (shiftSource i).val := by
  simp only [byteAt_cells_eq_toNat_read, read_shiftRows]

theorem byteAt_invShiftRows (b : Block) (i : Fin 16) :
    byteAt (invShiftRows b).cells i.val = byteAt b.cells (invShiftSource i).val := by
  simp only [byteAt_cells_eq_toNat_read, read_invShiftRows]

/-- The table SR of R154. -/
theorem shiftSource_val_eq_getD (i : Fin 16) :
    (shiftSource i).val = [0, 5, 10, 15, 4, 9, 14, 3, 8, 13, 2, 7, 12, 1, 6, 11].getD i.val 0 := by
  decide +revert

/-- The table ISR of R155. -/
theorem invShiftSource_val_eq_getD (i : Fin 16) :
    (invShiftSource i).val = [0, 13, 10, 7, 4, 1, 14, 11, 8, 5, 2, 15, 12, 9, 6, 3].getD i.val 0 := by
  decide +revert

theorem shiftSource_blockIndex_val (r c : Fin 4) :
    (shiftSource (blockIndex r c)).val = r.val + 4 * ((c.val + r.val) % 4) := by
  decide +revert

theorem invShiftSource_blockIndex_val (r c : Fin 4) :
    (invShiftSource (blockIndex r c)).val = r.val + 4 * ((c.val + 4 - r.val) % 4) := by
  decide +revert

/-- Settles O47: the source of each byte, by the tables and by rows and columns. -/
theorem rowShiftTables : Obligations.RowShiftTables := by
  intro b k
  rw [← shiftSource_val_eq_getD, ← invShiftSource_val_eq_getD]
  refine ⟨byteAt_shiftRows b k, byteAt_invShiftRows b k, fun r c => ?_⟩
  rw [← shiftSource_blockIndex_val, ← invShiftSource_blockIndex_val]
  exact ⟨byteAt_shiftRows b (blockIndex r c), byteAt_invShiftRows b (blockIndex r c)⟩

end Sys2Proof.Machine
end

section
/-! The two pipelines (44_round_pipeline.md R156, R157): where the ten S-boxes fit, each is a composition of rounds on
blocks, and the inverse rounds undo the forward ones (R160). -/

namespace Sys2Proof.Machine

open Sys2Proof.Safety

/-- A fold gives the fold of its steps' results where every step fits. -/
theorem Gives.foldlM {β γ : Type} {f : β → γ → Option β} {F : γ → Prop} {g : β → γ → β}
    (h : ∀ b c, Gives (f b c) (F c) (g b c)) (cs : List γ) (b : β) :
    Gives (cs.foldlM f b) (∀ c ∈ cs, F c) (cs.foldl g b) := by
  induction cs generalizing b with
  | nil => exact Gives.pure.congr_fits (by simp)
  | cons c cs ih =>
    rw [List.foldlM_cons, List.foldl_cons]
    exact .congr_fits ((h b c).bind fun _ => ih (g b c)) List.forall_mem_cons.symm

/-- Steps undone one by one, the last one first. -/
theorem foldl_reverse_foldl {β γ : Type} {f g : β → γ → β} (h : ∀ b c, g (f b c) c = b) (cs : List γ) (b : β) :
    cs.reverse.foldl g (cs.foldl f b) = b := by
  induction cs generalizing b with
  | nil => rfl
  | cons c cs ih => rw [List.foldl_cons, List.reverse_cons, List.foldl_append, ih, List.foldl_cons, h, List.foldl_nil]

section Rounds

variable (w : RegWidth) (rk : RoundKeys) (b : Block) (r : Fin 11)

/-- The S-box of a round where it fits (43_sbox.md R141, R146). -/
def roundTable : SBox := tableOf (sboxRef (rk.read r) r.val)

/-- A round of R156 with its S-box at hand. -/
def forwardRound : Block := addRoundKey (rk.read r) (shiftRows (subBytes (roundTable rk r) b))

/-- A round of R157 with its S-box at hand. -/
def inverseRound : Block := invSubBytes (invertSbox (roundTable rk r)) (invShiftRows (addRoundKey (rk.read r) b))

/-- The block R156 gives with its S-boxes at hand. -/
def enciphered : Block := rounds.foldl (forwardRound rk) (addRoundKey (rk.read 0) b)

/-- The block R157 gives with its S-boxes at hand. -/
def deciphered : Block := addRoundKey (rk.read 0) (rounds.reverse.foldl (inverseRound rk) b)

theorem bijective_at_roundTable : Function.Bijective (roundTable rk r).at := bijective_at_tableOf_sboxRef _ _

theorem roundSbox_gives : Gives (roundSbox w rk r) (sboxFits w (rk.read r) r.val) (roundTable rk r) :=
  deriveSbox_gives _ _ w

theorem encryptRound_gives : Gives (encryptRound w rk b r) (sboxFits w (rk.read r) r.val) (forwardRound rk b r) :=
  .congr_fits ((roundSbox_gives w rk r).bind fun _ => .pure) (and_iff_left trivial)

theorem decryptRound_gives : Gives (decryptRound w rk b r) (sboxFits w (rk.read r) r.val) (inverseRound rk b r) :=
  .congr_fits ((roundSbox_gives w rk r).bind fun _ => .pure) (and_iff_left trivial)

theorem mem_rounds : r ∈ rounds ↔ 1 ≤ r.val := by
  decide +revert

theorem roundsFit_iff : roundsFit w rk ↔ ∀ r ∈ rounds, sboxFits w (rk.read r) r.val := by
  simp only [roundsFit, mem_rounds]

theorem encryptBlock_gives : Gives (encryptBlock w rk b) (roundsFit w rk) (enciphered rk b) :=
  .congr_fits (.foldlM (encryptRound_gives w rk) rounds _) (roundsFit_iff w rk).symm

theorem decryptBlock_gives : Gives (decryptBlock w rk b) (roundsFit w rk) (deciphered rk b) :=
  .congr_fits ((Gives.foldlM (decryptRound_gives w rk) rounds.reverse b).bind fun _ => .pure)
    (by simp only [and_true, List.mem_reverse, roundsFit_iff])

theorem inverseRound_forwardRound : inverseRound rk (forwardRound rk b r) r = b := by
  rw [inverseRound, forwardRound, addRoundKey_addRoundKey, invShiftRows_shiftRows,
    invSubBytes_subBytes _ (bijective_at_roundTable rk r)]

theorem forwardRound_inverseRound : forwardRound rk (inverseRound rk b r) r = b := by
  rw [inverseRound, forwardRound, subBytes_invSubBytes _ (bijective_at_roundTable rk r), shiftRows_invShiftRows,
    addRoundKey_addRoundKey]

/-- The inverse pipeline undoes the forward one (44_round_pipeline.md R160). -/
theorem deciphered_enciphered : deciphered rk (enciphered rk b) = b := by
  rw [deciphered, enciphered, foldl_reverse_foldl (inverseRound_forwardRound rk), addRoundKey_addRoundKey]

/-- The forward pipeline undoes the inverse one (44_round_pipeline.md R160). -/
theorem enciphered_deciphered : enciphered rk (deciphered rk b) = b := by
  have hundo := foldl_reverse_foldl (forwardRound_inverseRound rk) rounds.reverse b
  rwa [List.reverse_reverse, ← addRoundKey_addRoundKey (rk.read 0) (rounds.reverse.foldl _ b)] at hundo

end Rounds

section Locality

/-- The blocks `x` and `y` differ at byte `j` and nowhere else. -/
def DifferAt (x y : Block) (j : Fin 16) : Prop := ∀ i, x.read i ≠ y.read i ↔ i = j

variable {x y : Block} {j : Fin 16}

theorem DifferAt.addRoundKey (h : DifferAt x y j) (k : Block) : DifferAt (addRoundKey k x) (addRoundKey k y) j := by
  intro i
  rw [read_addRoundKey, read_addRoundKey, Ne, BitVec.xor_left_inj]
  exact h i

theorem DifferAt.subBytes (h : DifferAt x y j) {t : SBox} (ht : Function.Injective t.at) :
    DifferAt (subBytes t x) (subBytes t y) j := by
  intro i
  rw [read_subBytes, read_subBytes, ht.ne_iff]
  exact h i

/-- ShiftRows takes the byte at `j` to the one place whose source is `j`. -/
theorem DifferAt.shiftRows (h : DifferAt x y j) : DifferAt (shiftRows x) (shiftRows y) (invShiftSource j) := by
  intro i
  rw [read_shiftRows, read_shiftRows, h]
  exact ⟨fun hij => by rw [← hij, invShiftSource_shiftSource], fun hij => by rw [hij, shiftSource_invShiftSource]⟩

theorem DifferAt.foldl_forwardRound (h : DifferAt x y j) (rk : RoundKeys) (rs : List (Fin 11)) :
    DifferAt (rs.foldl (forwardRound rk) x) (rs.foldl (forwardRound rk) y) (invShiftSource^[rs.length] j) := by
  induction rs generalizing x y j with
  | nil => exact h
  | cons r rs ih => exact ih ((h.subBytes (bijective_at_roundTable rk r).injective).shiftRows.addRoundKey (rk.read r))

/-- Where ten row shifts take a byte: rows 1 and 3 move by two columns, rows 0 and 2 are back in place. -/
theorem iterate_invShiftSource_val (j : Fin 16) :
    (invShiftSource^[10] j).val = if j.val % 2 = 0 then j.val else (j.val + 8) % 16 := by
  decide +revert

end Locality

/-- Settles O51: every stage keeps the blocks apart at one byte, which the ten row shifts move. -/
theorem byteLocality : Obligations.ByteLocality := by
  intro w rk x x' y y' j hy hy' hj hother i
  obtain ⟨-, rfl⟩ := (encryptBlock_gives w rk x).some_iff.mp hy
  obtain ⟨-, rfl⟩ := (encryptBlock_gives w rk x').some_iff.mp hy'
  have hdiffer : DifferAt x x' j := fun i =>
    ⟨fun hne => by_contra fun hi => hne (hother i hi), fun hi => hi ▸ hj⟩
  rw [← iterate_invShiftSource_val, ← Fin.ext_iff]
  exact (hdiffer.addRoundKey (rk.read 0)).foldl_forwardRound rk rounds i

end Sys2Proof.Machine
end

section
/-! The two pipelines against the second writing of R156 and R157 on functions: one round at a time, then by induction
on the number of rounds. -/

namespace Sys2Proof.Machine

open Sys2Proof.Safety

/-- The bytes of `b` are the values of `f`. -/
def BytesAre (b : Block) (f : Nat → Nat) : Prop := ∀ i : Fin 16, (b.read i).toNat = f i.val

/-- What holds at the start and is kept by each step, by its number, holds at the end. -/
theorem foldl_induction_index {β γ : Type} {g : β → γ → β} (motive : Nat → β → Prop) {cs : List γ} {b : β}
    (start : motive 0 b) (step : ∀ m (h : m < cs.length) b, motive m b → motive (m + 1) (g b cs[m])) :
    motive cs.length (cs.foldl g b) := by
  induction cs generalizing motive b with
  | nil => exact start
  | cons c cs ih =>
    exact ih (fun m => motive (m + 1)) (step 0 (by simp) b start) fun m h => step (m + 1) (by simpa using h)

section Rounds

variable (rk : RoundKeys) {b : Block} {f : Nat → Nat}

theorem sboxesRef_eq_sboxRef (r : Fin 11) : sboxesRef rk r.val = sboxRef (rk.read r) r.val := dif_pos r.isLt

theorem toNat_at_roundTable (r : Fin 11) (x : Byte) : ((roundTable rk r).at x).toNat = sboxesRef rk r.val x.toNat := by
  rw [sboxesRef_eq_sboxRef]
  exact toNat_read_tableOf (sboxRef_lt _ _) x.toFin

/-- A function that undoes the S-box of a round undoes it as its inverse table does. -/
theorem toNat_at_invertSbox_roundTable {isbox : Nat → Nat} (r : Fin 11)
    (hundo : ∀ x < 256, isbox (sboxesRef rk r.val x) = x) (y : Byte) :
    ((invertSbox (roundTable rk r)).at y).toNat = isbox y.toNat := by
  obtain ⟨x, rfl⟩ := (bijective_at_roundTable rk r).surjective y
  rw [toNat_at_roundTable, hundo _ x.isLt, (inverseSboxUndoes _ (bijective_at_roundTable rk r) x).1]

theorem bytesAre_addRoundKey (r : Fin 11) (h : BytesAre b f) :
    BytesAre (addRoundKey (rk.read r) b) fun k => f k ^^^ keyByte rk r.val k := fun i => by
  rw [read_addRoundKey, BitVec.toNat_xor, h, ← keyByte_eq_toNat_read]

theorem bytesAre_forwardRound (r : Fin 11) (h : BytesAre b f) :
    BytesAre (forwardRound rk b r) fun k => sboxesRef rk r.val (f (rowSource k)) ^^^ keyByte rk r.val k := by
  refine bytesAre_addRoundKey rk r fun i => ?_
  rw [read_shiftRows, read_subBytes, toNat_at_roundTable, h, shiftSource_val]

theorem bytesAre_inverseRound {isbox : Nat → Nat} (r : Fin 11) (hundo : ∀ x < 256, isbox (sboxesRef rk r.val x) = x)
    (h : BytesAre b f) : BytesAre (inverseRound rk b r) fun k =>
      isbox (f (invRowSource k) ^^^ keyByte rk r.val (invRowSource k)) := fun i => by
  rw [inverseRound, read_invSubBytes, toNat_at_invertSbox_roundTable rk r hundo, read_invShiftRows,
    bytesAre_addRoundKey rk r h, invShiftSource_val]

theorem getElem_rounds_val (m : Nat) (h : m < rounds.length) : rounds[m].val = m + 1 := by
  decide +revert

theorem getElem_reverse_rounds_val (m : Nat) (h : m < rounds.reverse.length) : rounds.reverse[m].val = 10 - m := by
  decide +revert

/-- The forward pipeline by its rule (44_round_pipeline.md R156). -/
theorem bytesAre_enciphered (h : BytesAre b f) :
    BytesAre (enciphered rk b) (encryptRef (sboxesRef rk) (keyByte rk) f 10) := by
  refine foldl_induction_index (fun m b => BytesAre b (encryptRef (sboxesRef rk) (keyByte rk) f m))
    (bytesAre_addRoundKey rk 0 h) fun m hm b hb => ?_
  have hround := bytesAre_forwardRound rk rounds[m] hb
  rwa [getElem_rounds_val] at hround

/-- The inverse pipeline by its rule, with any functions that undo the S-boxes (44_round_pipeline.md R157). -/
theorem bytesAre_deciphered {isbox : Nat → Nat → Nat}
    (hundo : ∀ r, 1 ≤ r → r ≤ 10 → ∀ x < 256, isbox r (sboxesRef rk r x) = x) (h : BytesAre b f) :
    BytesAre (deciphered rk b) fun k => decryptRef isbox (keyByte rk) f 10 k ^^^ keyByte rk 0 k := by
  refine bytesAre_addRoundKey rk 0 (foldl_induction_index (fun m b => BytesAre b (decryptRef isbox (keyByte rk) f m))
    h fun m hm b hb => ?_)
  have hround := bytesAre_inverseRound rk rounds.reverse[m] (isbox := isbox (10 - m))
    (by rw [getElem_reverse_rounds_val]; exact hundo _ (Nat.sub_pos_of_lt hm) (Nat.sub_le 10 m)) hb
  rwa [getElem_reverse_rounds_val] at hround

end Rounds

section Sequences

theorem bytesAre_byteAt_cells (b : Block) : BytesAre b (byteAt b.cells) := fun i => (byteAt_cells_eq_toNat_read b i).symm

variable {b : Block} {f : Nat → Nat}

theorem BytesAre.byteAt_eq (h : BytesAre b f) : ∀ j < 16, byteAt b.cells j = f j := fun j hj =>
  (byteAt_cells_eq_toNat_read b ⟨j, hj⟩).trans (h ⟨j, hj⟩)

theorem BytesAre.cells_eq (h : BytesAre b f) : b.cells = (List.range 16).map fun j => BitVec.ofNat 8 (f j) := by
  refine List.ext_getElem (by simp) fun j hj _ => ?_
  rw [List.getElem_map, List.getElem_range, ← h ⟨j, by simpa using hj⟩, BitVec.ofNat_toNat, BitVec.setWidth_eq]
  rfl

end Sequences

end Sys2Proof.Machine
end

section
/-! ENCRYPT and DECRYPT (44_round_pipeline.md R158 to R160): the checks are those of one answer, which the two commands
complete with the forward and with the inverse pipeline. -/

namespace Sys2Proof.Machine

open Sys2Proof.Safety

/-- The answer of a command that runs the block `c` through the pipeline `run`. -/
def blockAnswer {n : Nat} (c : Cells Byte n) (run : RegWidth → RoundKeys → Block → Option Block) (a : Arch) : Answer :=
  unlessFaulted a (withKey a fun rk =>
    if h : n = 16 then
      orOverflow (run a.regWidth rk (c.cast h)) (overflow a) fun blk => respond a blk.cells
    else raise .invalidBlockSize a)

theorem answerOf_encrypt_eq_blockAnswer (n : Nat) (c : Cells Byte (Instr.encrypt n).payloadLen) (a : Arch) :
    answerOf (.encrypt n) c a = blockAnswer (n := n) c encryptBlock a := answerOf_encrypt a n c

theorem answerOf_decrypt_eq_blockAnswer (n : Nat) (c : Cells Byte (Instr.decrypt n).payloadLen) (a : Arch) :
    answerOf (.decrypt n) c a = blockAnswer (n := n) c decryptBlock a := answerOf_decrypt a n c

namespace blockAnswer

variable {n : Nat} {c : Cells Byte n} {run : RegWidth → RoundKeys → Block → Option Block} {a : Arch} {k : KeyCtx}

theorem of_fault (hf : a.fault = true) : blockAnswer c run a = raise .faulted a := unlessFaulted_of_fault hf

theorem of_noKey (hf : a.fault = false) (hc : a.cipher = .noKey) : blockAnswer c run a = raise .noKey a := by
  rw [blockAnswer, unlessFaulted_of_ok hf, withKey_of_noKey hc]

theorem of_size (hf : a.fault = false) (hc : a.cipher = .loaded k) (hn : n ≠ 16) :
    blockAnswer c run a = raise .invalidBlockSize a := by
  rw [blockAnswer, unlessFaulted_of_ok hf, withKey_of_loaded hc, dif_neg hn]

variable {b : Block} {F : Prop} {y : Block}

theorem of_fits (hf : a.fault = false) (hc : a.cipher = .loaded k) (hrun : Gives (run a.regWidth k.rk b) F y)
    (hF : F) : blockAnswer b run a = respond a y.cells := by
  rw [blockAnswer, unlessFaulted_of_ok hf, withKey_of_loaded hc, dif_pos rfl]
  exact hrun.orOverflow_some hF _ _

theorem of_not_fits (hf : a.fault = false) (hc : a.cipher = .loaded k) (hrun : Gives (run a.regWidth k.rk b) F y)
    (hF : ¬ F) : blockAnswer b run a = overflow a := by
  rw [blockAnswer, unlessFaulted_of_ok hf, withKey_of_loaded hc, dif_pos rfl]
  exact hrun.orOverflow_none hF _ _

end blockAnswer

section Commands

variable {s : State} {rest : List Byte} {a : Arch} {r : Response}

theorem exec_encrypt_eq_after {n : Nat} (c : Cells Byte n) (hdin : s.din = c.cells ++ rest)
    (h : blockAnswer c encryptBlock s.arch = (a, r)) : exec (.encrypt n) s = .next (after s rest a r) :=
  exec_eq_after (i := .encrypt n) c hdin ((answerOf_encrypt_eq_blockAnswer n c s.arch).trans h)

theorem exec_decrypt_eq_after {n : Nat} (c : Cells Byte n) (hdin : s.din = c.cells ++ rest)
    (h : blockAnswer c decryptBlock s.arch = (a, r)) : exec (.decrypt n) s = .next (after s rest a r) :=
  exec_eq_after (i := .decrypt n) c hdin ((answerOf_decrypt_eq_blockAnswer n c s.arch).trans h)

end Commands

/-- Settles O48: each branch of the answer, the block by the rule of the forward pipeline. -/
theorem encryptResult : Obligations.EncryptResult := by
  intro n s payload rest hdin hlen
  have hexec {a r} := exec_encrypt_eq_after ⟨payload, hlen⟩ hdin (a := a) (r := r)
  refine ⟨fun hf => hexec (blockAnswer.of_fault hf), fun hf hc => hexec (blockAnswer.of_noKey hf hc),
    fun k hf hc hn => hexec (blockAnswer.of_size hf hc hn), ?_, ?_⟩
  · rintro k hf hc rfl hfits
    rw [← (bytesAre_enciphered k.rk (bytesAre_byteAt_cells ⟨payload, hlen⟩)).cells_eq]
    exact hexec (blockAnswer.of_fits hf hc (encryptBlock_gives _ _ _) hfits)
  · rintro k hf hc rfl hfits
    exact hexec (blockAnswer.of_not_fits hf hc (encryptBlock_gives _ _ _) hfits)

/-- Settles O49: each branch of the answer, the block by the rule of the inverse pipeline, which the forward pipeline
takes back to the payload. -/
theorem decryptResult : Obligations.DecryptResult := by
  intro n s payload rest hdin hlen
  have hexec {a r} := exec_decrypt_eq_after ⟨payload, hlen⟩ hdin (a := a) (r := r)
  refine ⟨fun hf => hexec (blockAnswer.of_fault hf), fun hf hc => hexec (blockAnswer.of_noKey hf hc),
    fun k hf hc hn => hexec (blockAnswer.of_size hf hc hn), ?_, ?_⟩
  · rintro k hf hc rfl hfits
    have hcipher := bytesAre_byteAt_cells ⟨payload, hlen⟩
    have hback := bytesAre_enciphered k.rk (bytesAre_byteAt_cells (deciphered k.rk ⟨payload, hlen⟩))
    rw [enciphered_deciphered] at hback
    exact ⟨_, (deciphered k.rk ⟨payload, hlen⟩).size,
      fun isbox hundo => (bytesAre_deciphered k.rk hundo hcipher).byteAt_eq,
      fun j hj => (hback.byteAt_eq j hj).symm,
      hexec (blockAnswer.of_fits hf hc (decryptBlock_gives _ _ _) hfits)⟩
  · rintro k hf hc rfl hfits
    exact hexec (blockAnswer.of_not_fits hf hc (decryptBlock_gives _ _ _) hfits)

/-- Settles O50: both commands answer OK, and the two pipelines undo each other. -/
theorem cipherRoundTrip : Obligations.CipherRoundTrip := by
  intro s k x hf hc hfits hx
  have hencrypt (b : Block) : exec (.encrypt 16) { s with din := b.cells } =
      .next { s with din := [], resp := s.resp ++ [⟨.ok, (enciphered k.rk b).cells⟩] } :=
    exec_encrypt_eq_after b (List.append_nil _).symm (blockAnswer.of_fits hf hc (encryptBlock_gives _ _ _) hfits)
  have hdecrypt (b : Block) : exec (.decrypt 16) { s with din := b.cells } =
      .next { s with din := [], resp := s.resp ++ [⟨.ok, (deciphered k.rk b).cells⟩] } :=
    exec_decrypt_eq_after b (List.append_nil _).symm (blockAnswer.of_fits hf hc (decryptBlock_gives _ _ _) hfits)
  obtain ⟨b, rfl⟩ : ∃ b : Block, b.cells = x := ⟨⟨x, hx⟩, rfl⟩
  refine ⟨⟨_, (enciphered k.rk b).size, hencrypt b, ?_⟩, ⟨_, (deciphered k.rk b).size, hdecrypt b, ?_⟩⟩
  · rw [hdecrypt, deciphered_enciphered]
  · rw [hencrypt, enciphered_deciphered]

end Sys2Proof.Machine
end

section
/-! Exceptions (60_exceptions.md): a word on CMD is answered by one answer to its payload; the checks of R182 that fail
for it are what that answer reports, and every report of a failed check is precise (R180). -/

namespace Sys2Proof.Machine

open Sys2Proof.Safety

/-- The check that an answer reports as failed; none where the command completed or overflowed. -/
def failedCheck (x : Answer) : Option Status := if x.2.status.precise then some x.2.status else none

section Reports

variable {a : Arch} {o : Option Status}

theorem failedCheck_eq_some_iff {x : Answer} {e : Status} :
    failedCheck x = some e ↔ x.2.status.precise = true ∧ x.2.status = e := by
  simp [failedCheck]

theorem failedCheck_eq_none_iff {x : Answer} : failedCheck x = none ↔ x.2.status.precise = false := by
  simp [failedCheck]

theorem failedCheck_raise {e : Status} (precise : e.precise = true) : failedCheck (raise e a) = some e :=
  failedCheck_eq_some_iff.mpr ⟨precise, rfl⟩

theorem failedCheck_unlessFaulted {x : Answer} (h : failedCheck x = o) :
    failedCheck (unlessFaulted a x) = if a.fault then some .faulted else o := by
  cases hf : a.fault
  · simpa [hf] using h
  · simpa [hf] using failedCheck_raise rfl

theorem failedCheck_withUser {f : Prng → Answer} (h : ∀ p, failedCheck (f p) = o) :
    failedCheck (withUser a f) = if ¬ a.uSeeded then some .notSeeded else o := by
  cases hu : a.user with
  | unseeded => simpa [hu, Arch.uSeeded] using failedCheck_raise rfl
  | seeded p => simpa [hu, Arch.uSeeded] using h p

theorem failedCheck_withKey {f : RoundKeys → Answer} (h : ∀ rk, failedCheck (f rk) = o) :
    failedCheck (withKey a f) = if ¬ a.cKeyvalid then some .noKey else o := by
  cases hc : a.cipher with
  | noKey => simpa [hc, Arch.cKeyvalid] using failedCheck_raise rfl
  | loaded k => simpa [hc, Arch.cKeyvalid] using h k.rk

/-- The check of the operand: `q` is the way R182 says that it fails. -/
theorem failedCheck_dite {p q : Prop} [Decidable p] [Decidable q] {f : p → Answer} {e : Status}
    (precise : e.precise = true) (hpq : p ↔ ¬ q) (h : ∀ hp, failedCheck (f hp) = none) :
    failedCheck (if hp : p then f hp else raise e a) = if q then some e else none := by
  by_cases hp : p
  · rw [dif_pos hp, if_neg (hpq.mp hp), h hp]
  · rw [dif_neg hp, if_pos (not_not.mp (mt hpq.mpr hp)), failedCheck_raise precise]

/-- A computation on registers, once it runs, completes or overflows: it reports no failed check. -/
theorem failedCheck_orOverflow {β : Type} {y : Option β} {ov : Answer} {run : β → Answer}
    (hov : failedCheck ov = none) (hrun : ∀ b, failedCheck (run b) = none) :
    failedCheck (orOverflow y ov run) = none := by
  cases y with
  | none => exact hov
  | some b => exact hrun b

end Reports

/-- Items 3 and 4 of the order of checks, by command (60_exceptions.md R182). -/
def commandCheck (a : Arch) : Instr → Option Status
  | .pseed _ => none
  | .pnextint bits =>
    if ¬ a.uSeeded then some .notSeeded else if bits = 0 then some .illegalOperand else none
  | .pnextbytes _ => if ¬ a.uSeeded then some .notSeeded else none
  | .keyload n => if n ∉ [16, 24, 32] then some .invalidKeySize else none
  | .encrypt n | .decrypt n =>
    if ¬ a.cKeyvalid then some .noKey else if n ≠ 16 then some .invalidBlockSize else none
  | .rdrk i => if ¬ a.cKeyvalid then some .noKey else if 10 < i then some .illegalOperand else none
  | .sboxgen r | .isboxgen r =>
    if ¬ a.cKeyvalid then some .noKey else if r < 1 ∨ 10 < r then some .illegalOperand else none

theorem checkStatus_of_decode_ok {w : Word} {i : Instr} (a : Arch) (h : decode w = .ok i) :
    checkStatus a w = if a.fault then some .faulted else commandCheck a i := by
  obtain ⟨hopc, harg⟩ := fields_of_decode_eq_ok h
  rw [checkStatus, hopc, harg]
  cases i <;> simp [commandCheck, opcodes, Instr.opc, Instr.arg]

theorem checkStatus_of_illegal {w : Word} (a : Arch) (h : opcNat w ∉ opcodes) :
    checkStatus a w = if a.fault then some .faulted else some .illegalCommand := by
  rw [checkStatus, if_pos h]

theorem checkStatus_of_fault {a : Arch} (w : Word) (h : a.fault = true) : checkStatus a w = some .faulted := if_pos h

theorem failedCheck_blockAnswer {n : Nat} (c : Cells Byte n) (run : RegWidth → RoundKeys → Block → Option Block)
    (a : Arch) : failedCheck (blockAnswer c run a) = if a.fault then some .faulted else
      if ¬ a.cKeyvalid then some .noKey else if n ≠ 16 then some .invalidBlockSize else none :=
  failedCheck_unlessFaulted (failedCheck_withKey fun _ =>
    failedCheck_dite rfl not_not.symm fun _ => failedCheck_orOverflow rfl fun _ => rfl)

theorem failedCheck_tableAnswer (r : Nat) (dout : SBox → List Byte) (a : Arch) :
    failedCheck (tableAnswer r dout a) = if a.fault then some .faulted else
      if ¬ a.cKeyvalid then some .noKey else if r < 1 ∨ 10 < r then some .illegalOperand else none :=
  failedCheck_unlessFaulted (failedCheck_withKey fun _ =>
    failedCheck_dite rfl (by omega) fun _ => failedCheck_orOverflow rfl fun _ => rfl)

/-- Every command makes its checks in the order of R182. -/
theorem failedCheck_answerOf (i : Instr) (c : Cells Byte i.payloadLen) (a : Arch) :
    failedCheck (answerOf i c a) = if a.fault then some .faulted else commandCheck a i := by
  cases i with
  | pseed n =>
    rw [answerOf_pseed]
    exact failedCheck_unlessFaulted (failedCheck_orOverflow rfl fun _ => rfl)
  | pnextint bits =>
    rw [answerOf_pnextint]
    refine failedCheck_unlessFaulted (failedCheck_withUser fun p => ?_)
    split
    · exact failedCheck_raise rfl
    · exact failedCheck_orOverflow rfl fun _ => rfl
  | pnextbytes length =>
    rw [answerOf_pnextbytes]
    exact failedCheck_unlessFaulted (failedCheck_withUser fun _ => failedCheck_orOverflow rfl fun _ => rfl)
  | keyload n =>
    rw [answerOf_keyload]
    exact failedCheck_unlessFaulted (failedCheck_dite rfl ((legalKeyLen_iff n).trans not_not.symm) fun _ =>
      failedCheck_orOverflow rfl fun _ => rfl)
  | encrypt n => exact answerOf_encrypt_eq_blockAnswer n c a ▸ failedCheck_blockAnswer (n := n) c _ a
  | decrypt n => exact answerOf_decrypt_eq_blockAnswer n c a ▸ failedCheck_blockAnswer (n := n) c _ a
  | rdrk i =>
    rw [answerOf_rdrk]
    exact failedCheck_unlessFaulted (failedCheck_withKey fun _ => failedCheck_dite rfl (by omega) fun _ => rfl)
  | sboxgen r => exact answerOf_sboxgen_eq_tableAnswer r c a ▸ failedCheck_tableAnswer r _ a
  | isboxgen r => exact answerOf_isboxgen_eq_tableAnswer r c a ▸ failedCheck_tableAnswer r _ a

namespace CommandAnswer

variable {i : Instr} {a : Arch} {x : Answer}

/-- A report of a failed check is precise (60_exceptions.md R179, R180). -/
theorem eq_raise (h : CommandAnswer i a x) (hx : x.2.status.precise = true) : x = raise x.2.status a := by
  cases h with
  | error => rfl
  | overflow | overflowUser | advance | load | read => cases hx

/-- A command that reports no failed check completes, or overflows at a finite width. -/
theorem ok_or_overflow (h : CommandAnswer i a x) (hx : x.2.status.precise = false) :
    x.2.status = .ok ∨ (x.2.status = .overflow ∧ a.regWidth ≠ .unbounded) := by
  cases h with
  | error e precise => exact nomatch precise.symm.trans hx
  | overflow _ hw | overflowUser _ hw => exact .inr ⟨rfl, hw⟩
  | advance | load | read => exact .inl rfl

/-- The effects of OVERFLOW (60_exceptions.md R178). -/
theorem effects_of_overflow (h : CommandAnswer i a x) (hx : x.2.status = .overflow) :
    a.regWidth ≠ .unbounded ∧ x.2.dout = [] ∧
      x.1 = { a with fault := true, user := if isPrngCommand i = true then .unseeded else a.user } := by
  cases h with
  | error e precise => subst hx; cases precise
  | overflow hi hw | overflowUser hi hw => exact ⟨hw, rfl, by rw [hi]; rfl⟩
  | advance | load | read => cases hx

end CommandAnswer

/-- What CORE answers to an accepted word in the architectural state `a` (30_encoding.md R76, R82). -/
inductive WordAnswer (w : Word) (a : Arch) : Answer → Prop
  | command {i : Instr} (hd : decode w = .ok i) (c : Cells Byte i.payloadLen) : WordAnswer w a (answerOf i c a)
  | illegal (hw : opcNat w ∉ opcodes) : WordAnswer w a (unlessFaulted a (raise .illegalCommand a))

/-- What a transaction whose response is `r` took from DIN and answered. -/
theorem transact_next_of_resp {n : Nat} {run : Cells Byte n → Arch → Answer} {s t : State} {r : Response}
    (h : transact n run s = .next t) (hresp : t.resp = s.resp ++ [r]) :
    ∃ c, run c s.arch = (t.arch, r) ∧ t.din = s.din.drop n ∧ t.cmd = s.cmd := by
  obtain ⟨c, rest, hdin, rfl⟩ := transact_next h
  have hans : (run c s.arch).2 = r := by simpa using hresp
  exact ⟨c, Prod.ext rfl hans, by rw [hdin, List.drop_left' c.size], rfl⟩

/-- Everything a step does that accepts a word and gives the response `r`. -/
theorem wordAnswer_of_step {s t : State} {w : Word} {rest : List Word} {r : Response} (hc : s.cmd = w :: rest)
    (h : step s = .next t) (hresp : t.resp = s.resp ++ [r]) :
    WordAnswer w s.arch (t.arch, r) ∧ t.din = s.din.drop (payloadBytes w) ∧ t.cmd = rest := by
  cases hd : decode w with
  | ok i =>
    rw [step_of_decode_ok hc hd, exec_eq_transact] at h
    obtain ⟨c, hans, hdin, hcmd⟩ := transact_next_of_resp h hresp
    exact ⟨hans ▸ .command hd c, payloadBytes_of_decode_ok hd ▸ hdin, hcmd⟩
  | error e =>
    have hw := exists_decode_eq_error_iff.mp ⟨e, hd⟩
    rw [step_of_decode_error hc hd] at h
    obtain ⟨-, hans, hdin, hcmd⟩ := transact_next_of_resp h hresp
    exact ⟨hans ▸ .illegal hw, payloadBytes_of_illegal hw ▸ hdin, hcmd⟩

namespace WordAnswer

variable {w : Word} {a : Arch} {x : Answer}

/-- The checks that R182 gives for the word are the ones CORE makes. -/
theorem failedCheck_eq (h : WordAnswer w a x) : failedCheck x = checkStatus a w := by
  cases h with
  | command hd c => rw [failedCheck_answerOf, checkStatus_of_decode_ok a hd]
  | illegal hw => rw [checkStatus_of_illegal a hw, failedCheck_unlessFaulted (failedCheck_raise rfl)]

/-- A word that is no command is answered with a failed check; any other with what its command can answer. -/
theorem precise_or_commandAnswer (h : WordAnswer w a x) :
    (x.2.status.precise = true ∧ x = raise x.2.status a) ∨ ∃ i, decode w = .ok i ∧ CommandAnswer i a x := by
  cases h with
  | command hd c => exact .inr ⟨_, hd, commandAnswer_answerOf _ c a⟩
  | illegal hw =>
    left
    obtain ⟨-, hx⟩ | ⟨-, hx⟩ := unlessFaulted_cases a (raise .illegalCommand a) <;> rw [hx] <;> exact ⟨rfl, rfl⟩

theorem eq_raise (h : WordAnswer w a x) (hx : x.2.status.precise = true) : x = raise x.2.status a := by
  obtain ⟨-, heq⟩ | ⟨i, -, hans⟩ := h.precise_or_commandAnswer
  · exact heq
  · exact hans.eq_raise hx

/-- The first failed check is answered with its status, and nothing is changed. -/
theorem eq_raise_of_checkStatus {e : Status} (h : WordAnswer w a x) (he : checkStatus a w = some e) :
    x = raise e a := by
  obtain ⟨hprecise, hstatus⟩ := failedCheck_eq_some_iff.mp (h.failedCheck_eq.trans he)
  exact hstatus ▸ h.eq_raise hprecise

theorem ok_or_overflow_of_checkStatus (h : WordAnswer w a x) (hnone : checkStatus a w = none) :
    x.2.status = .ok ∨ (x.2.status = .overflow ∧ a.regWidth ≠ .unbounded) := by
  have hx := failedCheck_eq_none_iff.mp (h.failedCheck_eq.trans hnone)
  obtain ⟨hprecise, -⟩ | ⟨i, -, hans⟩ := h.precise_or_commandAnswer
  · exact nomatch hprecise.symm.trans hx
  · exact hans.ok_or_overflow hx

theorem regWidth_eq (h : WordAnswer w a x) : x.1.regWidth = a.regWidth := by
  obtain ⟨-, heq⟩ | ⟨i, -, hans⟩ := h.precise_or_commandAnswer
  · rw [heq, raise_fst]
  · exact hans.regWidth_eq

end WordAnswer

/-- Settles O11: the answer reports the first failed check; where none fails it is a command's. -/
theorem firstFailedCheckGivesStatus : Obligations.FirstFailedCheckGivesStatus := by
  intro s t w rest r hc h hresp
  obtain ⟨hans, -, -⟩ := wordAnswer_of_step hc h hresp
  split
  · next e he => exact congrArg (·.2.status) (hans.eq_raise_of_checkStatus he)
  · next hnone => exact hans.ok_or_overflow_of_checkStatus hnone

theorem Status.precise_of_code {e : Status} (h : e.code.toNat ∈ [1, 2, 3, 4, 5, 6]) : e.precise = true := by
  revert h
  cases e <;> decide

/-- Settles O12: these statuses report failed checks. -/
theorem errorsArePrecise : Obligations.ErrorsArePrecise := by
  intro s t w rest r hc h hresp hcode
  obtain ⟨hans, hdin, hcmd⟩ := wordAnswer_of_step hc h hresp
  obtain ⟨harch, hr⟩ := Prod.mk.inj (hans.eq_raise (Status.precise_of_code hcode))
  exact ⟨harch, congrArg Response.dout hr, hdin, hcmd⟩

/-- Settles O14: FAULTED is the first of the checks. -/
theorem faultedAnswersEveryWord : Obligations.FaultedAnswersEveryWord := by
  intro s w rest hf hc hlen
  obtain ⟨a, r, hstep⟩ := everyWordTakesItsPayload s w rest hc hlen
  obtain ⟨hans, -, -⟩ := wordAnswer_of_step hc hstep rfl
  obtain ⟨rfl, rfl⟩ := Prod.mk.inj (hans.eq_raise_of_checkStatus (checkStatus_of_fault w hf))
  exact hstep

/-- Only a FAULT that is set makes a check report anything but 0x01 to 0x06. -/
theorem code_le_of_checkStatus {a : Arch} {w : Word} {e : Status} (hf : a.fault = false)
    (h : checkStatus a w = some e) : e.code.toNat ≤ 6 := by
  rw [checkStatus, if_neg (Bool.eq_false_iff.mp hf)] at h
  split_ifs at h <;> cases h <;> decide

/-- Settles O13: the invariant shuts out FAULTED, the width OVERFLOW, and the invariant still holds after the step. -/
theorem unboundedNeverOverflows : Obligations.UnboundedNeverOverflows := by
  intro s t r hw hs h hresp
  cases hc : s.cmd with
  | nil =>
    rw [step, fetch_nil hc] at h
    cases h
    simp at hresp
  | cons w rest =>
    obtain ⟨hans, -, -⟩ := wordAnswer_of_step hc h hresp
    obtain ⟨hfs, -, -⟩ := (inv_iff s).mp hs
    obtain ⟨hft, -, -⟩ := (inv_iff t).mp (stepKeepsInvariant s t hs h)
    have hf : s.arch.fault = false := Bool.eq_false_of_not_eq_true fun hf => hfs hf hw
    refine ⟨?_, Bool.eq_false_of_not_eq_true fun hf => hft hf (hans.regWidth_eq.trans hw)⟩
    cases hcheck : checkStatus s.arch w with
    | some e =>
      rw [congrArg (·.2.status) (hans.eq_raise_of_checkStatus hcheck)]
      exact code_le_of_checkStatus hf hcheck
    | none =>
      obtain hok | ⟨-, hfin⟩ := hans.ok_or_overflow_of_checkStatus hcheck
      · rw [hok]; decide
      · exact absurd hw hfin

theorem opcNat_mem_iff_isPrngCommand {w : Word} {i : Instr} (h : decode w = .ok i) :
    opcNat w ∈ [0x10, 0x11, 0x12] ↔ isPrngCommand i = true := by
  obtain ⟨hopc, -⟩ := fields_of_decode_eq_ok h
  rw [hopc]
  cases i <;> simp [Instr.opc, isPrngCommand]

/-- Settles O15: only a command overflows, in the context it runs on. -/
theorem overflowEffects : Obligations.OverflowEffects := by
  intro s t w rest r hc h hresp hr
  obtain ⟨hans, -, -⟩ := wordAnswer_of_step hc h hresp
  obtain ⟨hprecise, -⟩ | ⟨i, hd, hcom⟩ := hans.precise_or_commandAnswer
  · rw [hr] at hprecise
    cases hprecise
  · simp only [opcNat_mem_iff_isPrngCommand hd]
    exact hcom.effects_of_overflow hr

/-- Settles O7: nothing is accepted. -/
theorem idleHoldsState : Obligations.IdleHoldsState := by
  intro s hc
  rw [step, fetch_nil hc, idle]

end Sys2Proof.Machine
end

section
/-! Reset (70_reset_and_hazards.md R190, R192) and the independence of the user stream and the cipher context (R194). -/

namespace Sys2Proof.Machine

open Sys2Proof.Safety

/-- Right after reset no key is loaded, U holds no registers and FAULT is 0, so no clause of the invariant asks for
anything. -/
theorem inv_resetOf (w : RegWidth) : Inv (State.resetOf w) := ⟨nofun, nofun, nofun⟩

/-- Settles O22: reset at every width, the canonical one among them. -/
theorem resetMeetsInvariant : Obligations.ResetMeetsInvariant := ⟨inv_resetOf Config.canonicalWidth, inv_resetOf⟩

/-- Settles O18: the frame of what a command can answer; KEYLOAD, which writes the cipher context, is no PRNG
command. -/
theorem cipherAndStreamAreIndependent : Obligations.CipherAndStreamAreIndependent := by
  intro i s t h
  obtain ⟨c, rest, -, rfl⟩ := exec_next h
  have hans := commandAnswer_answerOf i c s.arch
  refine ⟨fun hprng => hans.cipher_eq ?_, hans.user_eq⟩
  rintro ⟨n, rfl⟩
  cases hprng

/-- Settles O20: the checks of R176 and R177, as each command's result states them, in the state of reset. -/
theorem refusedUntilBooted : Obligations.RefusedUntilBooted := by
  intro w s payload rest n hreset hdin hlen
  have hf : s.arch.fault = false := hreset ▸ Arch.reset_fault w
  have hu : s.arch.user = .unseeded := hreset ▸ Arch.reset_user w
  have hc : s.arch.cipher = .noKey := hreset ▸ Arch.reset_cipher w
  obtain ⟨-, hpnextint, -⟩ := pnextintResult n s
  obtain ⟨-, hpnextbytes, -⟩ := pnextbytesResult n s
  obtain ⟨-, hencrypt, -⟩ := encryptResult n s payload rest hdin hlen
  obtain ⟨-, hdecrypt, -⟩ := decryptResult n s payload rest hdin hlen
  obtain ⟨-, hrdrk, -⟩ := rdrkResult n s
  obtain ⟨-, hsboxgen, -⟩ := sboxgenResult n s
  obtain ⟨-, hisboxgen, -⟩ := isboxgenResult n s
  exact ⟨by rw [Arch.uSeeded, hu], by rw [Arch.cKeyvalid, hc], hf, hpnextint hf hu, hpnextbytes hf hu, hencrypt hf hc,
    hdecrypt hf hc, hrdrk hf hc, hsboxgen hf hc, hisboxgen hf hc⟩

end Sys2Proof.Machine
end

section
/-! Widths that suffice (70_reset_and_hazards.md R199): the registers of a key schedule and of an S-box generation stay
within the bounds of 41_prng.md R124, so a width that holds those bounds holds every value assigned on the way. -/

namespace Sys2Proof.Machine

open Sys2Proof.Safety

section Widths

variable {w : RegWidth} {p : Prng} {m s : Nat}

/-- Step 1 of a churn assigns 1 or the state that the churn leaves, step 2 the state that it leaves
(41_prng.md R113). -/
theorem churnFits_of_fits_churnRef (hone : belowWidth w 1) (h : (churnRef p).Fits w) : churnFits w p := by
  obtain ⟨hstate, hmicro⟩ := h
  by_cases hstep : stateStep p = 1
  · rw [churnRef, if_pos hstep] at hstate
    exact ⟨hstep ▸ hone, fun _ => hstate, hmicro⟩
  · rw [churnRef, if_neg hstep] at hstate
    exact ⟨hstate, fun h1 => absurd h1 hstep, hmicro⟩

/-- A generation, which seeds a context and churns it `m` times, overflows no register where the registers fit after
every churn. -/
theorem generation_fits (hone : belowWidth w 1) (h : ∀ k ≤ m, (streamRef (seedRef s) k).Fits w) :
    seedFits w s ∧ streamFits w (seedRef s) m :=
  ⟨h 0 (Nat.zero_le m), fun k hk => churnFits_of_fits_churnRef hone (h (k + 1) hk)⟩

/-- The micro register of a fresh context is no longer than the seed, which is XORed with 32 bits (41_prng.md R111). -/
theorem seedRef_micro_lt {b : Nat} (hs : s < 2 ^ b) (hb : 32 ≤ b) : (seedRef s).micro < 2 ^ b :=
  Nat.xor_lt_two_pow hs ((by decide : 0xCAFEBABE < 2 ^ 32).trans_le (Nat.pow_le_pow_right Nat.two_pos hb))

/-- The two register bounds of 41_prng.md R124, for the stream of a seed. -/
theorem streamRef_seedRef_lt (s k : Nat) :
    (s < 2 ^ 256 → k ≤ 176 →
      (streamRef (seedRef s) k).micro < 2 ^ 399 ∧ (streamRef (seedRef s) k).state < 2 ^ 402) ∧
    (s < 2 ^ 128 → k ≤ 1020 →
      (streamRef (seedRef s) k).micro < 2 ^ 939 ∧ (streamRef (seedRef s) k).state < 2 ^ 943) := by
  obtain ⟨hgrowth, -⟩ := registerGrowth
  obtain ⟨-, -, hkey, hsbox⟩ :=
    hgrowth _ _ _ _ _ ((nextBytes_gives .unbounded (seedRef s) k).eq_some (streamFits_unbounded _ k))
  exact ⟨fun hs => hkey hs (seedRef_micro_lt hs (by decide)), fun hs => hsbox hs (seedRef_micro_lt hs (by decide))⟩

variable {n : Nat} {hn : 0 < n}

theorem belowWidth_one : belowWidth (.finite n hn) 1 := Nat.one_lt_two_pow hn.ne'

theorem belowWidth_of_lt_two_pow {v b : Nat} (hv : v < 2 ^ b) (hb : b ≤ n) : belowWidth (.finite n hn) v :=
  hv.trans_le (Nat.pow_le_pow_right Nat.two_pos hb)

/-- 402 bits hold every key schedule (70_reset_and_hazards.md R199). -/
theorem scheduleFits_of_le {key : List Byte} (hkey : key.length ≤ 32) (hwide : 402 ≤ n) :
    scheduleFits (.finite n hn) key := by
  have hs : beSum key < 2 ^ 256 := (beSum_lt key).trans_le (Nat.pow_le_pow_right (n := 256) (by decide) hkey)
  refine generation_fits belowWidth_one fun k hk => ?_
  obtain ⟨hgrowth, -⟩ := streamRef_seedRef_lt (beSum key) k
  obtain ⟨hmicro, hstate⟩ := hgrowth hs hk
  exact ⟨belowWidth_of_lt_two_pow hstate hwide, belowWidth_of_lt_two_pow hmicro (by omega)⟩

/-- 943 bits hold every S-box generation (70_reset_and_hazards.md R199). -/
theorem sboxFits_of_le (key : Block) {r : Nat} (hr : r ≤ 10) (hwide : 943 ≤ n) : sboxFits (.finite n hn) key r := by
  obtain ⟨-, hseed, -⟩ := sboxSeedRule
  obtain ⟨hs, -⟩ := hseed key r hr
  rw [sboxSeed_eq_sboxSeedRef] at hs
  refine generation_fits belowWidth_one fun k hk => ?_
  obtain ⟨-, hgrowth⟩ := streamRef_seedRef_lt (sboxSeedRef key r) k
  obtain ⟨hmicro, hstate⟩ := hgrowth hs hk
  exact ⟨belowWidth_of_lt_two_pow hstate hwide, belowWidth_of_lt_two_pow hmicro (by omega)⟩

end Widths

/-- The answer's status is not OVERFLOW. -/
def NoOverflow (x : Answer) : Prop := x.2.status ≠ .overflow

namespace NoOverflow

variable {a : Arch}

theorem respond (dout : List Byte) : NoOverflow (respond a dout) := nofun

theorem unlessFaulted {x : Answer} (h : NoOverflow x) : NoOverflow (unlessFaulted a x) := by
  obtain ⟨-, hx⟩ | ⟨-, hx⟩ := unlessFaulted_cases a x <;> rw [hx]
  · exact nofun
  · exact h

theorem withKey {f : RoundKeys → Answer} (h : ∀ rk, NoOverflow (f rk)) : NoOverflow (withKey a f) := by
  obtain ⟨-, hx⟩ | ⟨k, -, hx⟩ := withKey_cases a f <;> rw [hx]
  · exact nofun
  · exact h k.rk

theorem dite {q : Prop} [Decidable q] {f : q → Answer} {e : Status} (he : e ≠ .overflow)
    (h : ∀ hq, NoOverflow (f hq)) : NoOverflow (if hq : q then f hq else raise e a) := by
  split
  · exact h _
  · exact he

/-- A computation every value of which fits does not overflow (60_exceptions.md R178). -/
theorem orOverflow {β : Type} {y : Option β} {F : Prop} {b : β} {ov : Answer} {run : β → Answer}
    (hy : Gives y F b) (hF : F) (h : NoOverflow (run b)) : NoOverflow (orOverflow y ov run) := by
  rwa [hy.orOverflow_some hF]

end NoOverflow

section Commands

variable {a : Arch}

theorem noOverflow_keyload {n : Nat} (c : Cells Byte (Instr.keyload n).payloadLen)
    (hfits : n ∈ [16, 24, 32] → scheduleFits a.regWidth c.cells) : NoOverflow (answerOf (.keyload n) c a) := by
  rw [answerOf_keyload]
  exact .unlessFaulted (.dite nofun fun hlegal =>
    .orOverflow (expandKey_gives _ _) (hfits ((legalKeyLen_iff n).mp hlegal)) (.respond _))

/-- ENCRYPT and DECRYPT use the S-boxes of rounds 1 to 10, SBOXGEN and ISBOXGEN one of them, RDRK no registers. -/
theorem noOverflow_readOnly {i : Instr} (hi : isReadOnlyCommand i = true) (c : Cells Byte i.payloadLen)
    (hfits : ∀ (k : Block) (r : Nat), r ≤ 10 → sboxFits a.regWidth k r) : NoOverflow (answerOf i c a) := by
  have hrounds (rk : RoundKeys) : roundsFit a.regWidth rk := fun r _ => hfits _ _ (Nat.le_of_lt_succ r.isLt)
  have htable (r : Nat) (dout : SBox → List Byte) : NoOverflow (tableAnswer r dout a) :=
    .unlessFaulted (.withKey fun rk => .dite nofun fun hr =>
      .orOverflow (roundSbox_gives _ rk ⟨r, hr.2⟩) (hfits _ _ (Nat.le_of_lt_succ hr.2)) (.respond _))
  cases i with
  | encrypt n =>
    rw [answerOf_encrypt]
    exact .unlessFaulted (.withKey fun rk => .dite nofun fun _ =>
      .orOverflow (encryptBlock_gives _ rk _) (hrounds rk) (.respond _))
  | decrypt n =>
    rw [answerOf_decrypt]
    exact .unlessFaulted (.withKey fun rk => .dite nofun fun _ =>
      .orOverflow (decryptBlock_gives _ rk _) (hrounds rk) (.respond _))
  | rdrk n =>
    rw [answerOf_rdrk]
    exact .unlessFaulted (.withKey fun rk => .dite nofun fun _ => .respond _)
  | sboxgen r => exact answerOf_sboxgen_eq_tableAnswer r c a ▸ htable r _
  | isboxgen r => exact answerOf_isboxgen_eq_tableAnswer r c a ▸ htable r _
  | pseed | pnextint | pnextbytes | keyload => cases hi

end Commands

/-- Settles O39: the two widths hold every key schedule and every S-box generation, which are all that these commands
compute on registers. -/
theorem sufficientWidths : Obligations.SufficientWidths := by
  intro i s t r w hw hwidth h hresp
  obtain ⟨c, rest, -, rfl⟩ := exec_next h
  obtain rfl : (answerOf i c s.arch).2 = r := by simpa using hresp
  refine ⟨?_, fun hi hwide => noOverflow_readOnly hi c fun k r hr => hwidth ▸ sboxFits_of_le k hr hwide⟩
  rintro ⟨n, rfl⟩ hwide
  refine noOverflow_keyload c fun hlegal => hwidth ▸ scheduleFits_of_le ?_ hwide
  have hlen : c.cells.length = n := c.size
  simp only [List.mem_cons, List.not_mem_nil, or_false] at hlegal
  omega

end Sys2Proof.Machine
end
